-- ==== Sys2Proof/Word.lean ====
section
/-! DEFINITION. The word types of the spec (00_scope.md R9, R10). -/

namespace Sys2Proof

/-- `u8` of R10: a command byte, a parameter byte, a byte of the burst buffer. -/
abbrev Byte := BitVec 8

/-- `u16` of R10: coordinates, extents, radii, modes and colours (R9 "coordinate width", "colour width"). -/
abbrev U16 := BitVec 16

/-- `u32` of R10: the BURST count (R9 "count width"). -/
abbrev U32 := BitVec 32

/-- `i32` of R10: the circle working registers, two's complement. -/
abbrev I32 := BitVec 32

/-- The 96-bit command word of R80. -/
abbrev CommandWord := BitVec 96

end Sys2Proof
end

