-- ==== Sys2Proof/Config.lean ====
section
/-! DEFINITION. The implementation parameters of 00_scope.md R9, fixed for a run (R210). -/

namespace Sys2Proof

/-- The pair `(width, height)` in pixels of R21. -/
structure Geometry where
  width : U16
  height : U16
deriving DecidableEq, Repr

/-- `PANEL_V` of R9: the pair of the vertical modes (D12). -/
def Config.panelV : Geometry := ⟨240, 320⟩

/-- `PANEL_H` of R9: the pair of the horizontal modes (D12). -/
def Config.panelH : Geometry := ⟨320, 240⟩

/-- R22: a geometry is one of the two panel pairs. -/
abbrev Geometry.Legal (g : Geometry) : Prop := g = Config.panelV ∨ g = Config.panelH

/-- The parameters of R9 that have a value of their own. The widths of R9 are the types of `Word.lean`, the panel pairs are
`Config.panelV` and `Config.panelH`, and `TRANSPORT_COMPLETES` is an assumption (log 2). -/
structure Config where
  /-- `BURST_CAP`: largest number of bytes in one send of a burst; even, at least 2 (D14). -/
  burstCap : Nat
  /-- `OPC_COL`: column-range command byte (D10). -/
  opcCol : Byte
  /-- `OPC_ROW`: row-range command byte (D10). -/
  opcRow : Byte
  /-- `OPC_MEMWR`: memory-write command byte (D10). -/
  opcMemwr : Byte
  /-- `OPC_MADCTL`: memory-access-control command byte (D10). -/
  opcMadctl : Byte
  /-- `ORI_BYTE[0]`: data byte of mode 0, vertical-normal (D11). -/
  oriByte0 : Byte
  /-- `ORI_BYTE[1]`: data byte of mode 1, horizontal-normal (D11). -/
  oriByte1 : Byte
  /-- `ORI_BYTE[2]`: data byte of mode 2, vertical-flipped (D11). -/
  oriByte2 : Byte
  /-- `ORI_BYTE[3]`: data byte of mode 3, horizontal-flipped (D11). -/
  oriByte3 : Byte
  /-- `RESET_GEOM`, the geometry after reset, is one of the two pairs (D23): `PANEL_H` if this is true, else `PANEL_V`. -/
  resetHorizontal : Bool
deriving DecidableEq, Repr

/-- `RESET_GEOM` of R9 and R36. -/
def Config.resetGeom (c : Config) : Geometry := if c.resetHorizontal then Config.panelH else Config.panelV

/-- Free value (log 4): which of the two pairs `RESET_GEOM` is. R36: "not fixed; the model treats it as a draw". -/
opaque Config.resetDraw : Bool

/-- The defaults of R9 (PRESUMED by the spec itself, 93_implementation_defined.md G1, G2; log 3), with `RESET_GEOM` a draw.
Statements about all states quantify over `cfg` and rest on none of these values. -/
def Config.default : Config where
  burstCap := 1024
  opcCol := 0x2A
  opcRow := 0x2B
  opcMemwr := 0x2C
  opcMadctl := 0x36
  oriByte0 := 0x48
  oriByte1 := 0x28
  oriByte2 := 0x88
  oriByte3 := 0xE8
  resetHorizontal := Config.resetDraw

end Sys2Proof
end

