-- ==== Sys2Proof/Syntax.lean ====
section
/-! DEFINITION. The thirteen operations of 30_encoding.md R82, with the operands R90 gives them and no ignored field. -/

namespace Sys2Proof

/-- One constructor per row of the operation table (R82); the operand order is that of R90. -/
inductive Instr where
  /-- WRCMD byte (R110). -/
  | wrcmd (byte : Byte)
  /-- WRPAR byte (R111). -/
  | wrpar (byte : Byte)
  /-- SETWIN x1, y1, x2, y2 (R112). -/
  | setwin (x1 y1 x2 y2 : U16)
  /-- SETORI mode (R113); the whole 16-bit field is the mode (R81 (c)). -/
  | setori (mode : U16)
  /-- BURST color, count (R130). -/
  | burst (color : U16) (count : U32)
  /-- PIXEL x, y, color (R140). -/
  | pixel (x y color : U16)
  /-- RECTF x, y, w, h, color (R141). -/
  | rectf (x y w h color : U16)
  /-- HLINE x, y, len, color (R142). -/
  | hline (x y len color : U16)
  /-- VLINE x, y, len, color (R143). -/
  | vline (x y len color : U16)
  /-- RECTH x0, y0, x1, y1, color (R144). -/
  | recth (x0 y0 x1 y1 color : U16)
  /-- RECTFC x0, y0, x1, y1, color (R145). -/
  | rectfc (x0 y0 x1 y1 color : U16)
  /-- CIRCH cx, cy, r, color (R160). -/
  | circh (cx cy r color : U16)
  /-- CIRCF cx, cy, r, color (R161). -/
  | circf (cx cy r color : U16)
deriving DecidableEq, Repr

end Sys2Proof
end

