-- ==== Sys2Proof/WellFormed.lean ====
section
/-! DEFINITION. What is checked of a configuration, and of an operation written with unbounded numbers. -/

namespace Sys2Proof

/-- The constraints on the parameters: `BURST_CAP` even and at least 2 (R9, R54, R210; U2 "refuse"). `RESET_GEOM` is one of the two
pairs by its type. -/
def Config.wellFormed (c : Config) : Bool :=
  decide (2 ≤ c.burstCap) && decide (c.burstCap % 2 = 0)

/-- The mnemonics of R82. -/
inductive Mnemonic where
  | WRCMD | WRPAR | SETWIN | SETORI | BURST | PIXEL | RECTF | HLINE | VLINE | RECTH | RECTFC | CIRCH | CIRCF
deriving DecidableEq, Repr

/-- One line of the assembler of R90: a mnemonic and its operands, numbers of any size. -/
structure AsmLine where
  mnemonic : Mnemonic
  operands : List Nat
deriving DecidableEq, Repr

/-- The width in bits of each operand, in the order of R90's table. -/
def Mnemonic.operandWidths : Mnemonic → List Nat
  | .WRCMD => [8]
  | .WRPAR => [8]
  | .SETWIN => [16, 16, 16, 16]
  | .SETORI => [16]
  | .BURST => [16, 32]
  | .PIXEL => [16, 16, 16]
  | .RECTF => [16, 16, 16, 16, 16]
  | .HLINE => [16, 16, 16, 16]
  | .VLINE => [16, 16, 16, 16]
  | .RECTH => [16, 16, 16, 16, 16]
  | .RECTFC => [16, 16, 16, 16, 16]
  | .CIRCH => [16, 16, 16, 16]
  | .CIRCF => [16, 16, 16, 16]

/-- The right number of operands, each in its field's range (R90: "An operand outside its field's range is an assembler error,
not a truncation"). -/
def AsmLine.wellFormed (l : AsmLine) : Bool :=
  decide (l.operands.length = l.mnemonic.operandWidths.length) &&
    (l.operands.zip l.mnemonic.operandWidths).all fun p => decide (p.1 < 2 ^ p.2)

/-- Every operand of `Instr` has its field's width as its type and every value of it is legal (R81), so every term is well
formed; each constructor is listed so that a new one cannot slip past. -/
def Instr.wellFormed : Instr → Bool
  | .wrcmd _ => true
  | .wrpar _ => true
  | .setwin _ _ _ _ => true
  | .setori _ => true
  | .burst _ _ => true
  | .pixel _ _ _ => true
  | .rectf _ _ _ _ _ => true
  | .hline _ _ _ _ => true
  | .vline _ _ _ _ => true
  | .recth _ _ _ _ _ => true
  | .rectfc _ _ _ _ _ => true
  | .circh _ _ _ _ => true
  | .circf _ _ _ _ => true

end Sys2Proof
end

