-- ==== Sys2Proof/Decode.lean ====
section
/-! DEFINITION. The command word: its fields (R80), the decoder (R82, R83, R85) and the encoder (R85). -/

namespace Sys2Proof

/-- Why a word is ILLEGAL (R83). -/
inductive Illegal where
  /-- `RSV` is not 0x00. -/
  | reservedField (rsv : Byte)
  /-- `OP` is not one of the thirteen values of R82. -/
  | unassignedOperation (op : Byte)
deriving DecidableEq, Repr

/-- "every 96-bit value is either exactly one operation or ILLEGAL" (R83). -/
inductive Decoded where
  | operation (i : Instr)
  | illegal (why : Illegal)
deriving DecidableEq, Repr

/-! ### The fields of R80 -/

/-- `OP`, bits 95:88. -/
def CommandWord.op (w : CommandWord) : Byte := w.extractLsb' 88 8
/-- `RSV`, bits 87:80. -/
def CommandWord.rsv (w : CommandWord) : Byte := w.extractLsb' 80 8
/-- `A`, bits 79:64. -/
def CommandWord.a (w : CommandWord) : U16 := w.extractLsb' 64 16
/-- `B`, bits 63:48. -/
def CommandWord.b (w : CommandWord) : U16 := w.extractLsb' 48 16
/-- `C`, bits 47:32. -/
def CommandWord.c (w : CommandWord) : U16 := w.extractLsb' 32 16
/-- `D`, bits 31:16. -/
def CommandWord.d (w : CommandWord) : U16 := w.extractLsb' 16 16
/-- `E`, bits 15:0. -/
def CommandWord.e (w : CommandWord) : U16 := w.extractLsb' 0 16

/-- A word from its seven fields, most significant first (R80). -/
def CommandWord.ofFields (op rsv : Byte) (a b c d e : U16) : CommandWord :=
  op ++ rsv ++ a ++ b ++ c ++ d ++ e

/-! ### Decoding -/

/-- R81 (a): the byte operand of WRCMD and WRPAR is `A[7:0]`. -/
def byteOperand (a : U16) : Byte := a.extractLsb' 0 8

/-- R81 (b): `count = {C, D}`. -/
def countOperand (c d : U16) : U32 := c ++ d

/-- The operation table of R82: `OP` selects the row, the row names its operand fields; other fields are ignored (R81). -/
def decodeFields (op : Byte) (a b c d e : U16) : Decoded :=
  if op = 0x01 then .operation (.wrcmd (byteOperand a))
  else if op = 0x02 then .operation (.wrpar (byteOperand a))
  else if op = 0x03 then .operation (.setwin a b c d)
  else if op = 0x04 then .operation (.setori a)
  else if op = 0x05 then .operation (.burst e (countOperand c d))
  else if op = 0x10 then .operation (.pixel a b e)
  else if op = 0x11 then .operation (.rectf a b c d e)
  else if op = 0x12 then .operation (.hline a b c e)
  else if op = 0x13 then .operation (.vline a b d e)
  else if op = 0x14 then .operation (.recth a b c d e)
  else if op = 0x15 then .operation (.rectfc a b c d e)
  else if op = 0x16 then .operation (.circh a b c e)
  else if op = 0x17 then .operation (.circf a b c e)
  else .illegal (.unassignedOperation op)

/-- The decoding algorithm of R85. -/
def decode (w : CommandWord) : Decoded :=
  if w.rsv ≠ 0 then .illegal (.reservedField w.rsv)
  else decodeFields w.op w.a w.b w.c w.d w.e

/-! ### Encoding -/

/-- The `OP` value of an operation (R82). -/
def Instr.opcode : Instr → Byte
  | .wrcmd _ => 0x01
  | .wrpar _ => 0x02
  | .setwin _ _ _ _ => 0x03
  | .setori _ => 0x04
  | .burst _ _ => 0x05
  | .pixel _ _ _ => 0x10
  | .rectf _ _ _ _ _ => 0x11
  | .hline _ _ _ _ => 0x12
  | .vline _ _ _ _ => 0x13
  | .recth _ _ _ _ _ => 0x14
  | .rectfc _ _ _ _ _ => 0x15
  | .circh _ _ _ _ => 0x16
  | .circf _ _ _ _ => 0x17

/-- "Encoding is the inverse, with every ignored field and `RSV` written as 0" (R85), after the table of R90. -/
def encode : Instr → CommandWord
  | .wrcmd byte => .ofFields 0x01 0 (byte.setWidth 16) 0 0 0 0
  | .wrpar byte => .ofFields 0x02 0 (byte.setWidth 16) 0 0 0 0
  | .setwin x1 y1 x2 y2 => .ofFields 0x03 0 x1 y1 x2 y2 0
  | .setori mode => .ofFields 0x04 0 mode 0 0 0 0
  | .burst color count => .ofFields 0x05 0 0 0 (count.extractLsb' 16 16) (count.extractLsb' 0 16) color
  | .pixel x y color => .ofFields 0x10 0 x y 0 0 color
  | .rectf x y w h color => .ofFields 0x11 0 x y w h color
  | .hline x y len color => .ofFields 0x12 0 x y len 0 color
  | .vline x y len color => .ofFields 0x13 0 x y 0 len color
  | .recth x0 y0 x1 y1 color => .ofFields 0x14 0 x0 y0 x1 y1 color
  | .rectfc x0 y0 x1 y1 color => .ofFields 0x15 0 x0 y0 x1 y1 color
  | .circh cx cy r color => .ofFields 0x16 0 cx cy r 0 color
  | .circf cx cy r color => .ofFields 0x17 0 cx cy r 0 color

/-- The bits of the word that an operation reads: `OP`, `RSV` and the operand fields its row in R82 names. The other bits are
the ignored ones (R81). -/
def Instr.usedBits : Instr → CommandWord
  | .wrcmd _ => 0xFFFF00FF0000000000000000
  | .wrpar _ => 0xFFFF00FF0000000000000000
  | .setwin _ _ _ _ => 0xFFFFFFFFFFFFFFFFFFFF0000
  | .setori _ => 0xFFFFFFFF0000000000000000
  | .burst _ _ => 0xFFFF00000000FFFFFFFFFFFF
  | .pixel _ _ _ => 0xFFFFFFFFFFFF00000000FFFF
  | .rectf _ _ _ _ _ => 0xFFFFFFFFFFFFFFFFFFFFFFFF
  | .hline _ _ _ _ => 0xFFFFFFFFFFFFFFFF0000FFFF
  | .vline _ _ _ _ => 0xFFFFFFFFFFFF0000FFFFFFFF
  | .recth _ _ _ _ _ => 0xFFFFFFFFFFFFFFFFFFFFFFFF
  | .rectfc _ _ _ _ _ => 0xFFFFFFFFFFFFFFFFFFFFFFFF
  | .circh _ _ _ _ => 0xFFFFFFFFFFFFFFFF0000FFFF
  | .circf _ _ _ _ => 0xFFFFFFFFFFFFFFFF0000FFFF

/-- The host's view of the decoder. The word is handed over whole (R80, R53), so its bits are the table's bits; bits above
`nbits` are 0, and a number of more than 96 bits is no command word. -/
def decodeTableWord (nbits w : Nat) : Option Instr :=
  if w % 2 ^ nbits < 2 ^ 96 then
    match decode (BitVec.ofNat 96 (w % 2 ^ nbits)) with
    | .operation i => some i
    | .illegal _ => none
  else none

end Sys2Proof
end

