-- ==== Sys2Proof/Machine/State.lean ====
section
/-! DEFINITION. The state of the block (10_state.md R20 to R36) as plain data, the reasons a step can stop, and reset. -/

namespace Sys2Proof.Machine

/-- `CS` of R26. -/
inductive ChipSelect where
  | asserted
  | deasserted
deriving DecidableEq, Repr

/-- `DC` of R27. -/
inductive DataCommand where
  | command
  | data
deriving DecidableEq, Repr

/-- A transport event (R28). `send` carries a non-empty list; that it does is part of `Framed`. -/
inductive Event where
  /-- `SEL` -/
  | sel
  /-- `DESEL` -/
  | desel
  /-- `MODE_CMD` -/
  | modeCmd
  /-- `MODE_DATA` -/
  | modeData
  /-- `SEND(bytes)` -/
  | send (bytes : List Byte)
deriving DecidableEq, Repr

/-- Byte memory: (address, byte) cells, addresses strictly rising, no cell equal to what an unlisted address reads as. -/
abbrev Memory := List Host.Cell

/-- What an unlisted cell of the burst buffer reads as (DESIGN CHOICE, log 7: R36 leaves `BB` unspecified at reset). -/
def Memory.unlisted : Byte := 0

/-- The operand latches of R29: the fields of the command word being executed. -/
structure Latches where
  opl : Byte
  a : U16
  b : U16
  c : U16
  d : U16
  e : U16
deriving DecidableEq, Repr

/-- Working values of one `Burst` call and its block counter (R30). -/
structure BurstWork where
  totalBytes : Nat
  bufferSize : Nat
  fullBlocks : Nat
  remainder : Nat
  block : Nat
deriving DecidableEq, Repr

/-- Rectangle clamp (R31). -/
structure ClampWork where
  wEff : U16
  hEff : U16
  count : U32
deriving DecidableEq, Repr

/-- Rectangle from coordinates (R31). -/
structure CornerWork where
  xa : U16
  xb : U16
  ya : U16
  yb : U16
  dx : U16
  dy : U16
deriving DecidableEq, Repr

/-- Point coordinates handed to `Pixel` (R31, R162). -/
structure PointWork where
  px : U16
  py : U16
deriving DecidableEq, Repr

/-- Hollow-circle registers (R31). -/
structure HollowWork where
  x : I32
  y : I32
  dx : I32
  dy : I32
  err : I32
deriving DecidableEq, Repr

/-- Filled-circle registers (R31). -/
structure FilledWork where
  x : I32
  y : I32
  xChange : I32
  yChange : I32
  radiusError : I32
  i : I32
deriving DecidableEq, Repr

/-- The complete state of the block (R20), then the inputs and the configuration the step reads. -/
structure State where
  /-- `GEOM` (R21) -/
  geom : Geometry
  /-- `CS` (R26) -/
  cs : ChipSelect
  /-- `DC` (R27) -/
  dc : DataCommand
  /-- `T`, oldest event first (R28) -/
  trace : List Event
  /-- `OPL, A, B, C, D, E` (R29) -/
  latches : Latches
  /-- `BB` (R30, R52) -/
  bb : Memory
  /-- burst working values (R30) -/
  burstWork : BurstWork
  /-- rectangle clamp (R31) -/
  clampWork : ClampWork
  /-- rectangle from coordinates (R31) -/
  cornerWork : CornerWork
  /-- point coordinates (R31) -/
  pointWork : PointWork
  /-- hollow circle (R31) -/
  hollowWork : HollowWork
  /-- filled circle (R31) -/
  filledWork : FilledWork
  /-- index of the next command word (R32) -/
  pc : Nat
  /-- `BUSY` (R32) -/
  busy : Bool
  /-- input: the host's list of command words (D6; log 9) -/
  program : List CommandWord
  /-- input: the level of `RESET` (R200; log 15) -/
  resetIn : Bool
  /-- configuration: the parameters of R9, never written (R210; log 3) -/
  cfg : Config
deriving DecidableEq, Repr

/-- Why the machine stops with a fault. No operation raises one (R180). -/
inductive Fault where
  /-- Raised by `step` in a state with `BUSY = 1`, the stuck state of R184: the word at `pc` is not accepted (R32). Safe: the
  machine stops where the block makes no progress. -/
  | stuckInSend
deriving DecidableEq, Repr

/-- Why the model gives no meaning. -/
inductive Refusal where
  /-- An instruction without a meaning; no arm of `exec` raises it. Safe. -/
  | notModelled (mnemonic : String)
  /-- Raised by `step` under a configuration that R54 and R210 put outside the spec (odd `BURST_CAP`, `BURST_CAP` below 2; U2
  "refuse"). Safe: no configuration of the spec reaches it. -/
  | configurationOutsideSpec
deriving DecidableEq, Repr

/-- The state R36 gives after `RESET`, under a configuration, with the host's program in place. `DC`, the latches, `BB` and the
working values are unspecified there; the values here are DESIGN CHOICE (log 5 to log 8). -/
def State.ofReset (cfg : Config) (program : List CommandWord) : State where
  geom := cfg.resetGeom
  cs := .deasserted
  dc := .command
  trace := []
  latches := ⟨0, 0, 0, 0, 0, 0⟩
  bb := []
  burstWork := ⟨0, 0, 0, 0, 0⟩
  clampWork := ⟨0, 0, 0⟩
  cornerWork := ⟨0, 0, 0, 0, 0, 0⟩
  pointWork := ⟨0, 0⟩
  hollowWork := ⟨0, 0, 0, 0, 0⟩
  filledWork := ⟨0, 0, 0, 0, 0, 0⟩
  pc := 0
  busy := false
  program := program
  resetIn := false
  cfg := cfg

/-- The machine right after reset (R36, R200): the default parameters, no program presented. -/
def State.reset : State := State.ofReset Config.default []

end Sys2Proof.Machine
end

