-- ==== Sys2Proof/Machine/Flags.lean ====
section
/-! DEFINITION. The one-bit state of the block: `CS`, `DC` and `BUSY`. There are no condition flags (R33). -/

namespace Sys2Proof.Machine

/-- `CS <- v` (R26; only `Select` and `Deselect` call it). -/
def State.setCs (v : ChipSelect) (s : State) : State := { s with cs := v }

/-- `DC <- v` (R27; only `CommandMode` and `DataMode` call it). -/
def State.setDc (v : DataCommand) (s : State) : State := { s with dc := v }

/-- `BUSY <- v`: set when a word is accepted, cleared when its last event is complete (R32). -/
def State.setBusy (v : Bool) (s : State) : State := { s with busy := v }

end Sys2Proof.Machine
end

