-- ==== Sys2Proof/Machine/Memory.lean ====
section
/-! DEFINITION. Byte memory in canonical form; the burst buffer `BB` is one (R52). -/

namespace Sys2Proof.Machine

/-- The canonical form: addresses strictly rising, no cell equal to what an unlisted address reads as. -/
def Memory.wf (m : Memory) : Bool :=
  decide (m.Pairwise fun p q => p.1 < q.1) && m.all fun p => decide (p.2 ≠ Memory.unlisted)

/-- The byte at an address. Reads have no side effect (R52). -/
def Memory.read : Memory → Nat → Byte
  | [], _ => Memory.unlisted
  | (k, v) :: m, a => if a = k then v else Memory.read m a

/-- `MemWrite(a, 1, v)` (R52), keeping the canonical form. -/
def Memory.write : Memory → Nat → Byte → Memory
  | [], a, v => if v = Memory.unlisted then [] else [(a, v)]
  | (k, u) :: m, a, v =>
    if a < k then
      if v = Memory.unlisted then (k, u) :: m else (a, v) :: (k, u) :: m
    else if a = k then
      if v = Memory.unlisted then m else (a, v) :: m
    else (k, u) :: Memory.write m a v

/-- `MemRead(a, n)`: `n` bytes from `a` in ascending index order (R52). -/
def Memory.readBytes (m : Memory) (a n : Nat) : List Byte :=
  (List.range n).map fun i => m.read (a + i)

end Sys2Proof.Machine
end

