-- ==== Sys2Proof/Machine/Operands.lean ====
section
/-! DEFINITION. The number forms of R10 and the operand forms built on them. -/

namespace Sys2Proof.Machine

/-- `hi8(v) = v[15:8]` (R10). -/
def hi8 (v : U16) : Byte := v.extractLsb' 8 8

/-- `lo8(v) = v[7:0]` (R10). -/
def lo8 (v : U16) : Byte := v.extractLsb' 0 8

/-- `trunc16(n) = n mod 65536`, for any integer (R10). -/
def trunc16 (n : Int) : U16 := BitVec.ofInt 16 n

/-- An exact integer kept in an `i32` register (R31). -/
def toI32 (n : Int) : I32 := BitVec.ofInt 32 n

/-- `min` on unsigned values (R10). -/
def minU (a b : U16) : U16 := if a ≤ b then a else b

/-- `max` on unsigned values (R10). -/
def maxU (a b : U16) : U16 := if a ≤ b then b else a

/-- `w_eff * h_eff` as a `u32` (R141: exact, no wrap). -/
def area (w h : U16) : U32 := w.setWidth 32 * h.setWidth 32

/-- The buffer byte at index `i` (R130): `hi8(color)` at even indices, `lo8(color)` at odd ones. -/
def patternByte (color : U16) (i : Nat) : Byte := if i % 2 = 0 then hi8 color else lo8 color

/-- `ORI_BYTE[mode]` (R88, R113), for `mode` in 0..3. -/
def oriByte (c : Config) (mode : U16) : Byte :=
  if mode = 0 then c.oriByte0
  else if mode = 1 then c.oriByte1
  else if mode = 2 then c.oriByte2
  else c.oriByte3

/-- The geometry pair of a valid mode (R113, D12). -/
def modeGeometry (mode : U16) : Geometry :=
  if mode = 0 ∨ mode = 2 then Config.panelV else Config.panelH

/-- "Out-of-bounds" (R140, R141, R146): `x >= width or y >= height`. -/
def offPanel (g : Geometry) (x y : U16) : Bool := decide (g.width ≤ x) || decide (g.height ≤ y)

end Sys2Proof.Machine
end

