-- ==== Sys2Proof/Machine/Ops.lean ====
section
/-! DEFINITION. The named operations every meaning is built from: the five transport primitives of R11, the two accesses to the
burst buffer of R52, and the beginning and end of an operation (R29, R32). The block has no exceptions (R180, R187, R188), so
there is no exception entry and no return. -/

namespace Sys2Proof.Machine

/-- Appends one event to `T` (R11, R28). -/
def State.emit (e : Event) (s : State) : State := { s with trace := s.trace ++ [e] }

/-- `Select()`: append `SEL`, `CS <- asserted` (R11). -/
def State.select (s : State) : State := (s.emit .sel).setCs .asserted

/-- `Deselect()`: append `DESEL`, `CS <- deasserted` (R11). -/
def State.deselect (s : State) : State := (s.emit .desel).setCs .deasserted

/-- `CommandMode()`: append `MODE_CMD`, `DC <- command` (R11). -/
def State.commandMode (s : State) : State := (s.emit .modeCmd).setDc .command

/-- `DataMode()`: append `MODE_DATA`, `DC <- data` (R11). -/
def State.dataMode (s : State) : State := (s.emit .modeData).setDc .data

/-- `Send(bytes)`: append `SEND(bytes)`, wait for completion, discard the status (R11, R183; the answer is unread, log 2). -/
def State.send (bytes : List Byte) (s : State) : State := s.emit (.send bytes)

/-- `BB[i] <- v` (R52). -/
def State.writeBuffer (i : Nat) (v : Byte) (s : State) : State := { s with bb := s.bb.write i v }

/-- `BB[0 .. n-1]` (R52). -/
def State.readBuffer (n : Nat) (s : State) : List Byte := s.bb.readBytes 0 n

/-- Acceptance of a command word (R29, R32): its fields are latched together and `BUSY` is set. -/
def State.accept (w : CommandWord) (s : State) : State :=
  { s.setBusy true with
    latches := { opl := w.op, a := w.a, b := w.b, c := w.c, d := w.d, e := w.e } }

/-- The end of every operation (R32): `pc <- pc + 1` and `BUSY` cleared. -/
def State.complete (s : State) : State := { s.setBusy false with pc := s.pc + 1 }

end Sys2Proof.Machine
end

