-- ==== Sys2Proof/Machine/Burst.lean ====
section
/-! DEFINITION. The burst colour pipeline (41_burst_pipeline.md): BURST. -/

namespace Sys2Proof.Machine

/-- The fill loop of R130: indices 0 .. n-1 in ascending order. -/
def fillBuffer (color : U16) : Nat → State → State
  | 0, s => s
  | n + 1, s => (fillBuffer color n s).writeBuffer n (patternByte color n)

/-- The block counter of R30 moves on by one. -/
def countBlock (s : State) : State :=
  { s with burstWork := { s.burstWork with block := s.burstWork.block + 1 } }

/-- `repeat n times: Send(BB[0 .. size-1])` (R130). -/
def sendBlocks (size : Nat) : Nat → State → State
  | 0, s => s
  | n + 1, s => sendBlocks size n (countBlock (s.send (s.readBuffer size)))

/-- `if remainder > 0: Send(BB[0 .. remainder-1])`: no send of zero bytes (R132). -/
def sendRemainder (remainder : Nat) (s : State) : State :=
  if 0 < remainder then s.send (s.readBuffer remainder) else s

/-- The arithmetic of R130 on exact naturals, for `count > 0`; the block counter starts at 0. -/
def burstArithmetic (cap count : Nat) : BurstWork :=
  let totalBytes := 2 * count
  let bufferSize := min totalBytes cap
  { totalBytes := totalBytes
    bufferSize := bufferSize
    fullBlocks := totalBytes / bufferSize
    remainder := totalBytes % bufferSize
    block := 0 }

/-- `Burst(color, count)` (R130); nothing at all for `count = 0` (R133). -/
def burst (color : U16) (count : U32) (s : State) : State :=
  if count = 0 then s
  else
    let work := burstArithmetic s.cfg.burstCap count.toNat
    let s := fillBuffer color work.bufferSize { s with burstWork := work }
    let s := s.select.dataMode
    let s := sendBlocks work.bufferSize work.fullBlocks s
    (sendRemainder work.remainder s).deselect

/-- BURST (R130). -/
def execBurst (color : U16) (count : U32) (s : State) : Host.Outcome State Fault Refusal :=
  .next (burst color count s).complete

end Sys2Proof.Machine
end

