-- ==== Sys2Proof/Machine/Framer.lean ====
section
/-! DEFINITION. The protocol framer (40_protocol_framer.md): WRCMD, WRPAR, SETWIN, SETORI. -/

namespace Sys2Proof.Machine

/-- `CmdFrame(b)` (R110). -/
def cmdFrame (b : Byte) (s : State) : State :=
  (((s.select).commandMode).send [b]).deselect

/-- `ParFrame(b)` (R111). -/
def parFrame (b : Byte) (s : State) : State :=
  (((s.select).dataMode).send [b]).deselect

/-- A coordinate as two parameter frames, most significant byte first (R53, R112). -/
def parFrame16 (v : U16) (s : State) : State :=
  parFrame (lo8 v) (parFrame (hi8 v) s)

/-- `Window(x1, y1, x2, y2)` (R112): column range, row range, memory write. -/
def window (x1 y1 x2 y2 : U16) (s : State) : State :=
  let s := cmdFrame s.cfg.opcCol s
  let s := parFrame16 x2 (parFrame16 x1 s)
  let s := cmdFrame s.cfg.opcRow s
  let s := parFrame16 y2 (parFrame16 y1 s)
  cmdFrame s.cfg.opcMemwr s

/-- The body of SETORI (R113): nothing for a mode above 3 (D13). -/
def setOrientation (mode : U16) (s : State) : State :=
  if mode ≤ 3 then
    let s := cmdFrame s.cfg.opcMadctl s
    let s := parFrame (oriByte s.cfg mode) s
    { s with geom := modeGeometry mode }
  else s

/-- WRCMD (R110). -/
def execWrcmd (byte : Byte) (s : State) : Host.Outcome State Fault Refusal :=
  .next (cmdFrame byte s).complete

/-- WRPAR (R111). -/
def execWrpar (byte : Byte) (s : State) : Host.Outcome State Fault Refusal :=
  .next (parFrame byte s).complete

/-- SETWIN (R112). -/
def execSetwin (x1 y1 x2 y2 : U16) (s : State) : Host.Outcome State Fault Refusal :=
  .next (window x1 y1 x2 y2 s).complete

/-- SETORI (R113). -/
def execSetori (mode : U16) (s : State) : Host.Outcome State Fault Refusal :=
  .next (setOrientation mode s).complete

end Sys2Proof.Machine
end

