-- ==== Sys2Proof/Machine/Raster.lean ====
section
/-! DEFINITION. The rasterizer's pixel, lines and rectangles (42_rasterizer_rect_line.md). -/

namespace Sys2Proof.Machine

/-- `Pixel(x, y, color)` (R140). -/
def pixel (x y color : U16) (s : State) : State :=
  if offPanel s.geom x y then s
  else burst color 1 (window x y x y s)

/-- `RectF(x, y, w, h, color)` (R141): origin test, clamp, zero test, then the window and a burst of its pixel count. -/
def rectF (x y w h color : U16) (s : State) : State :=
  if offPanel s.geom x y then s
  else
    let wEff := minU w (s.geom.width - x)
    let hEff := minU h (s.geom.height - y)
    let s := { s with clampWork := { s.clampWork with wEff := wEff, hEff := hEff } }
    if wEff = 0 ∨ hEff = 0 then s
    else
      let s := { s with clampWork := { s.clampWork with count := area wEff hEff } }
      burst color (area wEff hEff) (window x y (x + wEff - 1) (y + hEff - 1) s)

/-- The ordered corners and the absolute deltas of R144 and R145. -/
def corners (x0 y0 x1 y1 : U16) : CornerWork :=
  { xa := minU x0 x1
    xb := maxU x0 x1
    ya := minU y0 y1
    yb := maxU y0 y1
    dx := maxU x0 x1 - minU x0 x1
    dy := maxU y0 y1 - minU y0 y1 }

/-- The body of RECTH (R144): top, bottom, left, right, far corner. -/
def rectHollow (x0 y0 x1 y1 color : U16) (s : State) : State :=
  let k := corners x0 y0 x1 y1
  let s := { s with cornerWork := k }
  let s := rectF k.xa k.ya k.dx 1 color s
  let s := rectF k.xa k.yb k.dx 1 color s
  let s := rectF k.xa k.ya 1 k.dy color s
  let s := rectF k.xb k.ya 1 k.dy color s
  if k.dx ≠ 0 ∨ k.dy ≠ 0 then pixel k.xb k.yb color s else s

/-- The body of RECTFC (R145), which assigns `xa`, `ya`, `dx`, `dy` only. That `xb` and `yb`, which it does not use, keep their
earlier values is the model's choice (DESIGN CHOICE, log 8: R31 calls them dead between operations). -/
def rectFromCorners (x0 y0 x1 y1 color : U16) (s : State) : State :=
  let k := corners x0 y0 x1 y1
  rectF k.xa k.ya k.dx k.dy color { s with cornerWork := { k with xb := s.cornerWork.xb, yb := s.cornerWork.yb } }

/-- PIXEL (R140). -/
def execPixel (x y color : U16) (s : State) : Host.Outcome State Fault Refusal :=
  .next (pixel x y color s).complete

/-- RECTF (R141). -/
def execRectf (x y w h color : U16) (s : State) : Host.Outcome State Fault Refusal :=
  .next (rectF x y w h color s).complete

/-- HLINE (R142). -/
def execHline (x y len color : U16) (s : State) : Host.Outcome State Fault Refusal :=
  .next (rectF x y len 1 color s).complete

/-- VLINE (R143). -/
def execVline (x y len color : U16) (s : State) : Host.Outcome State Fault Refusal :=
  .next (rectF x y 1 len color s).complete

/-- RECTH (R144). -/
def execRecth (x0 y0 x1 y1 color : U16) (s : State) : Host.Outcome State Fault Refusal :=
  .next (rectHollow x0 y0 x1 y1 color s).complete

/-- RECTFC (R145). -/
def execRectfc (x0 y0 x1 y1 color : U16) (s : State) : Host.Outcome State Fault Refusal :=
  .next (rectFromCorners x0 y0 x1 y1 color s).complete

end Sys2Proof.Machine
end

