-- ==== Sys2Proof/Machine/Circle.lean ====
section
/-! DEFINITION. The rasterizer's circles (43_rasterizer_circle.md). The offset lists are pure functions of the radius (R164);
the constants of both loops are the spec's own (D20, D21; log 23). -/

namespace Sys2Proof.Machine

/-- The hollow circle's working values, exact (R160 (f): none overflows `i32`). -/
structure Hollow where
  x : Int
  y : Int
  dx : Int
  dy : Int
  err : Int
deriving DecidableEq, Repr

/-- The filled circle's working values, exact (R161 (e)). -/
structure Filled where
  x : Int
  y : Int
  xChange : Int
  yChange : Int
  radiusError : Int
deriving DecidableEq, Repr

/-- The values before the first step (R160). -/
def hollowStart (r : Int) : Hollow := { x := r - 1, y := 0, dx := 1, dy := 1, err := 1 - 2 * r }

/-- The first test of a step (R160): on `err <= 0`. -/
def hollowFirst (h : Hollow) : Hollow :=
  if h.err ≤ 0 then { h with y := h.y + 1, err := h.err + h.dy, dy := h.dy + 2 } else h

/-- The second test of a step (R160): on the `err` just updated, not an else. -/
def hollowSecond (r : Int) (h : Hollow) : Hollow :=
  if 0 < h.err then { h with x := h.x - 1, dx := h.dx + 2, err := h.err + (h.dx + 2) - 2 * r } else h

/-- One step's update (R160). -/
def hollowNext (r : Int) (h : Hollow) : Hollow := hollowSecond r (hollowFirst h)

/-- The values at the start of each step, `while x >= y`, for at most `fuel` steps (log 20). -/
def hollowSteps (r : Int) : Nat → Hollow → List Hollow
  | 0, _ => []
  | fuel + 1, h => if h.y ≤ h.x then h :: hollowSteps r fuel (hollowNext r h) else []

/-- The values when the loop ends. -/
def hollowEnd (r : Int) : Nat → Hollow → Hollow
  | 0, h => h
  | fuel + 1, h => if h.y ≤ h.x then hollowEnd r fuel (hollowNext r h) else h

/-- The eight points of a step, in the order of R160. -/
def octants (x y : Int) : List (Int × Int) :=
  [(x, y), (y, x), (-y, x), (-x, y), (-x, -y), (-y, -x), (y, -x), (x, -y)]

/-- `HollowOffsets(r)` (R164). The loop ends after at most `r` steps (R160 (e)). -/
def hollowOffsets (r : Nat) : List (Int × Int) :=
  (hollowSteps r r (hollowStart r)).flatMap fun h => octants h.x h.y

/-- The values before the first step (R161). -/
def filledStart (r : Int) : Filled := { x := r, y := 0, xChange := 1 - 2 * r, yChange := 0, radiusError := 0 }

/-- The row update of a step (R161). -/
def filledRow (f : Filled) : Filled :=
  { f with y := f.y + 1, radiusError := f.radiusError + f.yChange, yChange := f.yChange + 2 }

/-- The test `2*radiusError + xChange > 0` of a step (R161). -/
def filledColumn (f : Filled) : Filled :=
  if 0 < 2 * f.radiusError + f.xChange then
    { f with x := f.x - 1, radiusError := f.radiusError + f.xChange, xChange := f.xChange + 2 }
  else f

/-- One step's update (R161). -/
def filledNext (f : Filled) : Filled := filledColumn (filledRow f)

/-- The values at the start of each step, `while x >= y`, for at most `fuel` steps (log 20). -/
def filledSteps : Nat → Filled → List Filled
  | 0, _ => []
  | fuel + 1, f => if f.y ≤ f.x then f :: filledSteps fuel (filledNext f) else []

/-- The values when the loop ends. -/
def filledEnd : Nat → Filled → Filled
  | 0, f => f
  | fuel + 1, f => if f.y ≤ f.x then filledEnd fuel (filledNext f) else f

/-- The integers from `-n` to `n`, ascending, inclusive (R161). -/
def symmetricRange (n : Int) : List Int := (List.range (2 * n + 1).toNat).map fun k : Nat => (k : Int) - n

/-- A span pair (R161): for each column in ascending order the `+` row and then the `-` row. -/
def spanPair (reach row : Int) : List (Int × Int) :=
  (symmetricRange reach).flatMap fun i => [(i, row), (i, -row)]

/-- `FilledOffsets(r)` (R164). The loop ends after at most `r + 1` steps (R161 (d)). -/
def filledOffsets (r : Nat) : List (Int × Int) :=
  (filledSteps (r + 1) (filledStart r)).flatMap fun f => spanPair f.x f.y ++ spanPair f.y f.x

/-- `Plot(cx, cy, ox, oy, color)` (R162): the exact sums reduced modulo 65536, then `Pixel`. -/
def plot (cx cy : U16) (o : Int × Int) (color : U16) (s : State) : State :=
  let px := trunc16 (cx.toNat + o.1)
  let py := trunc16 (cy.toNat + o.2)
  pixel px py color { s with pointWork := ⟨px, py⟩ }

/-- `Plot` over an offset list, in order (R164). -/
def plotAll (cx cy : U16) (offsets : List (Int × Int)) (color : U16) (s : State) : State :=
  offsets.foldl (fun s o => plot cx cy o color s) s

/-- The hollow-circle registers after the loop (R31). -/
def hollowRegisters (r : Nat) : HollowWork :=
  let h := hollowEnd r r (hollowStart r)
  ⟨toI32 h.x, toI32 h.y, toI32 h.dx, toI32 h.dy, toI32 h.err⟩

/-- The filled-circle registers after the loop (R31). The last `i` of the last span pair is the `y` of the last step, one less
than `y` after the loop (log 8). -/
def filledRegisters (r : Nat) : FilledWork :=
  let f := filledEnd (r + 1) (filledStart r)
  ⟨toI32 f.x, toI32 f.y, toI32 f.xChange, toI32 f.yChange, toI32 f.radiusError, toI32 (f.y - 1)⟩

/-- The body of CIRCH (R160). -/
def circleHollow (cx cy r color : U16) (s : State) : State :=
  { plotAll cx cy (hollowOffsets r.toNat) color s with hollowWork := hollowRegisters r.toNat }

/-- The body of CIRCF (R161). -/
def circleFilled (cx cy r color : U16) (s : State) : State :=
  { plotAll cx cy (filledOffsets r.toNat) color s with filledWork := filledRegisters r.toNat }

/-- CIRCH (R160). -/
def execCirch (cx cy r color : U16) (s : State) : Host.Outcome State Fault Refusal :=
  .next (circleHollow cx cy r color s).complete

/-- CIRCF (R161). -/
def execCircf (cx cy r color : U16) (s : State) : Host.Outcome State Fault Refusal :=
  .next (circleFilled cx cy r color s).complete

end Sys2Proof.Machine
end

