-- ==== Sys2Proof/Machine/Dispatch.lean ====
section
/-! DEFINITION. One arm per operation of R82. -/

namespace Sys2Proof.Machine

def exec (i : Instr) (s : State) : Host.Outcome State Fault Refusal :=
  match i with
  | .wrcmd byte => Sys2Proof.Machine.execWrcmd byte s
  | .wrpar byte => Sys2Proof.Machine.execWrpar byte s
  | .setwin x1 y1 x2 y2 => Sys2Proof.Machine.execSetwin x1 y1 x2 y2 s
  | .setori mode => Sys2Proof.Machine.execSetori mode s
  | .burst color count => Sys2Proof.Machine.execBurst color count s
  | .pixel x y color => Sys2Proof.Machine.execPixel x y color s
  | .rectf x y w h color => Sys2Proof.Machine.execRectf x y w h color s
  | .hline x y len color => Sys2Proof.Machine.execHline x y len color s
  | .vline x y len color => Sys2Proof.Machine.execVline x y len color s
  | .recth x0 y0 x1 y1 color => Sys2Proof.Machine.execRecth x0 y0 x1 y1 color s
  | .rectfc x0 y0 x1 y1 color => Sys2Proof.Machine.execRectfc x0 y0 x1 y1 color s
  | .circh cx cy r color => Sys2Proof.Machine.execCirch cx cy r color s
  | .circf cx cy r color => Sys2Proof.Machine.execCircf cx cy r color s

end Sys2Proof.Machine
end

