-- ==== Sys2Proof/Machine/Fetch.lean ====
section
/-! DEFINITION. How a step comes by its operation: the word the host presents, its acceptance and decoding, an ILLEGAL word, and
the block held in reset. -/

namespace Sys2Proof.Machine

/-- The word the host presents to an idle block: number `pc` of its list, none past the end (R32, D6; log 9, log 10). -/
def State.presented (s : State) : Option CommandWord := s.program[s.pc]?

/-- The decoding of R85 over the latched fields; `RSV` has no latch. -/
def Latches.decode (rsv : Byte) (l : Latches) : Decoded :=
  if rsv ≠ 0 then .illegal (.reservedField rsv)
  else decodeFields l.opl l.a l.b l.c l.d l.e

/-- An ILLEGAL word (R83): "no event, no state change except `pc <- pc + 1`, nothing raised" (log 12). -/
def State.skipIllegal (s : State) : State := { s with pc := s.pc + 1 }

/-- While `RESET` is asserted (R200): the state of R36, no word accepted, no event; the host still drives the input (log 15). -/
def State.heldInReset (s : State) : State := { State.ofReset s.cfg s.program with resetIn := true }

/-- The word of the host's numbering (R80: bit 0 is the least significant bit of the whole word). -/
def tableWord (nbits w : Nat) : CommandWord := BitVec.ofNat 96 (w % 2 ^ nbits)

/-- The host's list with one word put at index `pc`; ILLEGAL words fill a gap before it, which no reachable state has. -/
def placeWord (program : List CommandWord) (pc : Nat) (w : CommandWord) : List CommandWord :=
  program.take pc ++ List.replicate (pc - program.length) 0 ++ w :: program.drop (pc + 1)

end Sys2Proof.Machine
end

