-- ==== Sys2Proof/Machine/Step.lean ====
section
/-! DEFINITION. One step: one command word from acceptance to its last event (R32, R58; log 1). -/

namespace Sys2Proof.Machine

/-- One word: latched, decoded from the latches, executed; an ILLEGAL word only advances `pc` (R83). -/
def runWord (w : CommandWord) (s : State) : Host.Outcome State Fault Refusal :=
  match (s.accept w).latches.decode w.rsv with
  | .operation i => exec i (s.accept w)
  | .illegal _ => .next s.skipIllegal

/-- One step. A configuration outside the spec is refused (log 14); while `RESET` is asserted the block stays in reset (R200);
a busy block accepts no word (R32) and is stuck (R184); an idle block with no word presented stays idle (log 10). -/
def step (s : State) : Host.Outcome State Fault Refusal :=
  if s.cfg.wellFormed = false then .refused .configurationOutsideSpec
  else if s.resetIn = true then .next s.heldInReset
  else if s.busy = true then .fault .stuckInSend
  else
    match s.presented with
    | none => .next s
    | some w => runWord w s

/-- The word placed where the next step takes its word: at index `pc` of the host's list, with the block idle and `RESET`
released so that it is accepted (log 21). -/
def State.withFetchWord (s : State) (nbits w : Nat) : State :=
  { s with program := placeWord s.program s.pc (tableWord nbits w), busy := false, resetIn := false }

end Sys2Proof.Machine
end

