-- ==== Sys2Proof/Machine/Assembler.lean ====
section
/-! DEFINITION. The assembler syntax of 30_encoding.md R90: a line with its operands in order, and the text of a line. -/

namespace Sys2Proof.Machine

/-- The operation of a line with the operand list of R90, none for another number of operands. Numbers are taken at the
field's width; `assemble` first checks that they fit. -/
def AsmLine.instruction : AsmLine → Option Instr
  | ⟨.WRCMD, [byte]⟩ => some (.wrcmd (.ofNat 8 byte))
  | ⟨.WRPAR, [byte]⟩ => some (.wrpar (.ofNat 8 byte))
  | ⟨.SETWIN, [x1, y1, x2, y2]⟩ => some (.setwin (.ofNat 16 x1) (.ofNat 16 y1) (.ofNat 16 x2) (.ofNat 16 y2))
  | ⟨.SETORI, [mode]⟩ => some (.setori (.ofNat 16 mode))
  | ⟨.BURST, [color, count]⟩ => some (.burst (.ofNat 16 color) (.ofNat 32 count))
  | ⟨.PIXEL, [x, y, color]⟩ => some (.pixel (.ofNat 16 x) (.ofNat 16 y) (.ofNat 16 color))
  | ⟨.RECTF, [x, y, w, h, color]⟩ =>
    some (.rectf (.ofNat 16 x) (.ofNat 16 y) (.ofNat 16 w) (.ofNat 16 h) (.ofNat 16 color))
  | ⟨.HLINE, [x, y, len, color]⟩ => some (.hline (.ofNat 16 x) (.ofNat 16 y) (.ofNat 16 len) (.ofNat 16 color))
  | ⟨.VLINE, [x, y, len, color]⟩ => some (.vline (.ofNat 16 x) (.ofNat 16 y) (.ofNat 16 len) (.ofNat 16 color))
  | ⟨.RECTH, [x0, y0, x1, y1, color]⟩ =>
    some (.recth (.ofNat 16 x0) (.ofNat 16 y0) (.ofNat 16 x1) (.ofNat 16 y1) (.ofNat 16 color))
  | ⟨.RECTFC, [x0, y0, x1, y1, color]⟩ =>
    some (.rectfc (.ofNat 16 x0) (.ofNat 16 y0) (.ofNat 16 x1) (.ofNat 16 y1) (.ofNat 16 color))
  | ⟨.CIRCH, [cx, cy, r, color]⟩ => some (.circh (.ofNat 16 cx) (.ofNat 16 cy) (.ofNat 16 r) (.ofNat 16 color))
  | ⟨.CIRCF, [cx, cy, r, color]⟩ => some (.circf (.ofNat 16 cx) (.ofNat 16 cy) (.ofNat 16 r) (.ofNat 16 color))
  | _ => none

/-- A line becomes a command word; an operand outside its field's range, or a wrong number of operands, is an error and never a
truncation (R90). -/
def AsmLine.assemble (l : AsmLine) : Option CommandWord :=
  if l.wellFormed then (AsmLine.instruction l).map encode else none

/-- The line that writes an operation (R90), its operands in the source's order. -/
def disassemble : Instr → AsmLine
  | .wrcmd byte => ⟨.WRCMD, [byte.toNat]⟩
  | .wrpar byte => ⟨.WRPAR, [byte.toNat]⟩
  | .setwin x1 y1 x2 y2 => ⟨.SETWIN, [x1.toNat, y1.toNat, x2.toNat, y2.toNat]⟩
  | .setori mode => ⟨.SETORI, [mode.toNat]⟩
  | .burst color count => ⟨.BURST, [color.toNat, count.toNat]⟩
  | .pixel x y color => ⟨.PIXEL, [x.toNat, y.toNat, color.toNat]⟩
  | .rectf x y w h color => ⟨.RECTF, [x.toNat, y.toNat, w.toNat, h.toNat, color.toNat]⟩
  | .hline x y len color => ⟨.HLINE, [x.toNat, y.toNat, len.toNat, color.toNat]⟩
  | .vline x y len color => ⟨.VLINE, [x.toNat, y.toNat, len.toNat, color.toNat]⟩
  | .recth x0 y0 x1 y1 color => ⟨.RECTH, [x0.toNat, y0.toNat, x1.toNat, y1.toNat, color.toNat]⟩
  | .rectfc x0 y0 x1 y1 color => ⟨.RECTFC, [x0.toNat, y0.toNat, x1.toNat, y1.toNat, color.toNat]⟩
  | .circh cx cy r color => ⟨.CIRCH, [cx.toNat, cy.toNat, r.toNat, color.toNat]⟩
  | .circf cx cy r color => ⟨.CIRCF, [cx.toNat, cy.toNat, r.toNat, color.toNat]⟩

/-! ### The text of a line -/

/-- The value of a digit in a base, decimal or hexadecimal. -/
def digitValue (base : Nat) (c : Char) : Option Nat :=
  let n := c.toNat
  let v := if 48 ≤ n ∧ n ≤ 57 then n - 48
    else if 65 ≤ n ∧ n ≤ 70 then n - 55
    else if 97 ≤ n ∧ n ≤ 102 then n - 87
    else base
  if v < base then some v else none

/-- Digits, most significant first, after the value so far. -/
def digitsValue (base : Nat) : Nat → List Char → Option Nat
  | acc, [] => some acc
  | acc, c :: cs =>
    match digitValue base c with
    | some d => digitsValue base (acc * base + d) cs
    | none => none

/-- "a number is decimal or `0x` hexadecimal" (R90); at least one digit. -/
def parseNumber : List Char → Option Nat
  | [] => none
  | '0' :: 'x' :: [] => none
  | '0' :: 'x' :: c :: cs => digitsValue 16 0 (c :: cs)
  | c :: cs => digitsValue 10 0 (c :: cs)

/-- The mnemonics of R90. -/
def parseMnemonic (cs : List Char) : Option Mnemonic :=
  if cs = "WRCMD".toList then some .WRCMD
  else if cs = "WRPAR".toList then some .WRPAR
  else if cs = "SETWIN".toList then some .SETWIN
  else if cs = "SETORI".toList then some .SETORI
  else if cs = "BURST".toList then some .BURST
  else if cs = "PIXEL".toList then some .PIXEL
  else if cs = "RECTF".toList then some .RECTF
  else if cs = "HLINE".toList then some .HLINE
  else if cs = "VLINE".toList then some .VLINE
  else if cs = "RECTH".toList then some .RECTH
  else if cs = "RECTFC".toList then some .RECTFC
  else if cs = "CIRCH".toList then some .CIRCH
  else if cs = "CIRCF".toList then some .CIRCF
  else none

/-- The characters of a line before its comment: "`;` begins a comment" (R90). -/
def beforeComment : List Char → List Char
  | [] => []
  | c :: cs => if c = ';' then [] else c :: beforeComment cs

/-- The list cut at every occurrence of a character. -/
def splitChars (sep : Char) : List Char → List (List Char)
  | [] => [[]]
  | c :: cs =>
    match splitChars sep cs with
    | [] => [[c]]
    | p :: ps => if c = sep then [] :: p :: ps else (c :: p) :: ps

/-- The characters without leading and trailing spaces (log 22). -/
def trimSpaces (cs : List Char) : List Char :=
  ((cs.dropWhile fun c => decide (c = ' ')).reverse.dropWhile fun c => decide (c = ' ')).reverse

/-- All numbers of a list of texts, none if one is not a number. -/
def parseNumbers : List (List Char) → Option (List Nat)
  | [] => some []
  | c :: cs =>
    match parseNumber (trimSpaces c), parseNumbers cs with
    | some n, some ns => some (n :: ns)
    | _, _ => none

/-- One line of R90: "the mnemonic of rule R82, a space, then the operands separated by commas". -/
def parseLine (text : List Char) : Option AsmLine :=
  let body := trimSpaces (beforeComment text)
  let name := body.takeWhile fun c => decide (c ≠ ' ')
  match parseMnemonic name, parseNumbers (splitChars ',' (body.drop name.length)) with
  | some m, some ns => some ⟨m, ns⟩
  | _, _ => none

/-- The text of a line to its command word (R90). -/
def assembleText (text : List Char) : Option CommandWord :=
  match parseLine text with
  | some l => AsmLine.assemble l
  | none => none

end Sys2Proof.Machine
end

