-- ==== Sys2Proof/Machine/Views.lean ====
section
/-! DEFINITION. The trace as the spec describes it apart from the procedures: the wire layouts of R86 to R89 as event lists, the
events of each procedure, the derived views of R28, and the well-formedness of a trace. Nothing in the block reads these. -/

namespace Sys2Proof.Machine

/-! ### Wire layouts -/

/-- Command frame `C(b)` (R86). -/
def commandFrame (b : Byte) : List Event := [.sel, .modeCmd, .send [b], .desel]

/-- Parameter frame `P(b)` (R86). -/
def parameterFrame (b : Byte) : List Event := [.sel, .modeData, .send [b], .desel]

/-- The eleven frames of a window, in the order of R87. -/
def windowEvents (cfg : Config) (x1 y1 x2 y2 : U16) : List Event :=
  commandFrame cfg.opcCol ++
    parameterFrame (hi8 x1) ++ parameterFrame (lo8 x1) ++ parameterFrame (hi8 x2) ++ parameterFrame (lo8 x2) ++
  commandFrame cfg.opcRow ++
    parameterFrame (hi8 y1) ++ parameterFrame (lo8 y1) ++ parameterFrame (hi8 y2) ++ parameterFrame (lo8 y2) ++
  commandFrame cfg.opcMemwr

/-- The first `n` bytes of the colour stream (R89, R130). -/
def pattern (color : U16) (n : Nat) : List Byte := (List.range n).map (patternByte color)

/-- The burst frame of `count` pixels (R86, R89): sends of `bufferSize` bytes and one shorter one; nothing for 0 pixels. -/
def burstEvents (cfg : Config) (color : U16) (count : Nat) : List Event :=
  if count = 0 then []
  else
    let k := burstArithmetic cfg.burstCap count
    [.sel, .modeData] ++ List.replicate k.fullBlocks (.send (pattern color k.bufferSize)) ++
      (if 0 < k.remainder then [.send (pattern color k.remainder)] else []) ++ [.desel]

/-- The events of `Pixel` (R140). -/
def pixelEvents (cfg : Config) (g : Geometry) (x y color : U16) : List Event :=
  if offPanel g x y then [] else windowEvents cfg x y x y ++ burstEvents cfg color 1

/-- The clamped extent along one axis (R141), for an origin below the limit. -/
def clamp (limit origin extent : U16) : U16 := minU extent (limit - origin)

/-- The events of `RectF` (R141). -/
def rectEvents (cfg : Config) (g : Geometry) (x y w h color : U16) : List Event :=
  let w' := clamp g.width x w
  let h' := clamp g.height y h
  if offPanel g x y ∨ w' = 0 ∨ h' = 0 then []
  else windowEvents cfg x y (x + w' - 1) (y + h' - 1) ++ burstEvents cfg color (w'.toNat * h'.toNat)

/-- The events of one `Plot` (R162). -/
def plotEvents (cfg : Config) (g : Geometry) (cx cy : U16) (o : Int × Int) (color : U16) : List Event :=
  pixelEvents cfg g (trunc16 (cx.toNat + o.1)) (trunc16 (cy.toNat + o.2)) color

/-- The events of the five parts of RECTH, in order (R144). -/
def hollowRectEvents (cfg : Config) (g : Geometry) (k : CornerWork) (color : U16) : List Event :=
  rectEvents cfg g k.xa k.ya k.dx 1 color ++ rectEvents cfg g k.xa k.yb k.dx 1 color ++
    rectEvents cfg g k.xa k.ya 1 k.dy color ++ rectEvents cfg g k.xb k.ya 1 k.dy color ++
    (if k.dx ≠ 0 ∨ k.dy ≠ 0 then pixelEvents cfg g k.xb k.yb color else [])

/-- The events of an operation, which depend on the parameters, `GEOM` and the operands only (R20). -/
def operationEvents (cfg : Config) (g : Geometry) : Instr → List Event
  | .wrcmd byte => commandFrame byte
  | .wrpar byte => parameterFrame byte
  | .setwin x1 y1 x2 y2 => windowEvents cfg x1 y1 x2 y2
  | .setori mode =>
    if mode ≤ 3 then commandFrame cfg.opcMadctl ++ parameterFrame (oriByte cfg mode) else []
  | .burst color count => burstEvents cfg color count.toNat
  | .pixel x y color => pixelEvents cfg g x y color
  | .rectf x y w h color => rectEvents cfg g x y w h color
  | .hline x y len color => rectEvents cfg g x y len 1 color
  | .vline x y len color => rectEvents cfg g x y 1 len color
  | .recth x0 y0 x1 y1 color => hollowRectEvents cfg g (corners x0 y0 x1 y1) color
  | .rectfc x0 y0 x1 y1 color =>
    let k := corners x0 y0 x1 y1
    rectEvents cfg g k.xa k.ya k.dx k.dy color
  | .circh cx cy r color => (hollowOffsets r.toNat).flatMap fun o => plotEvents cfg g cx cy o color
  | .circf cx cy r color => (filledOffsets r.toNat).flatMap fun o => plotEvents cfg g cx cy o color

/-- `GEOM` after an operation (R21: only SETORI with a mode in 0..3 writes it). -/
def operationGeometry (g : Geometry) : Instr → Geometry
  | .setori mode => if mode ≤ 3 then modeGeometry mode else g
  | .wrcmd _ => g
  | .wrpar _ => g
  | .setwin _ _ _ _ => g
  | .burst _ _ => g
  | .pixel _ _ _ => g
  | .rectf _ _ _ _ _ => g
  | .hline _ _ _ _ => g
  | .vline _ _ _ _ => g
  | .recth _ _ _ _ _ => g
  | .rectfc _ _ _ _ _ => g
  | .circh _ _ _ _ => g
  | .circf _ _ _ _ => g

/-! ### Sizes and views -/

/-- "bytes": the sum of the lengths of the `SEND` lists (R14). -/
def byteCount : List Event → Nat
  | [] => 0
  | .send bytes :: t => bytes.length + byteCount t
  | .sel :: t => byteCount t
  | .desel :: t => byteCount t
  | .modeCmd :: t => byteCount t
  | .modeData :: t => byteCount t

/-- The number of sends of a trace; the next send is answered under this index. -/
def sendCount : List Event → Nat
  | [] => 0
  | .send _ :: t => sendCount t + 1
  | .sel :: t => sendCount t
  | .desel :: t => sendCount t
  | .modeCmd :: t => sendCount t
  | .modeData :: t => sendCount t

/-- The length of the longest send of a trace, 0 if there is none. Where the trace holds a burst, it is the number of bytes of
`BB` that burst wrote: `bufferSize` (R130). -/
def longestSend : List Event → Nat
  | [] => 0
  | .send bytes :: t => max bytes.length (longestSend t)
  | .sel :: t => longestSend t
  | .desel :: t => longestSend t
  | .modeCmd :: t => longestSend t
  | .modeData :: t => longestSend t

/-- The `SEND` lists of a trace joined (R131 (e)). -/
def sentBytes : List Event → List Byte
  | [] => []
  | .send bytes :: t => bytes ++ sentBytes t
  | .sel :: t => sentBytes t
  | .desel :: t => sentBytes t
  | .modeCmd :: t => sentBytes t
  | .modeData :: t => sentBytes t

/-- The value of `DC` after a trace that starts with the given one (R27). -/
def modeAfter : DataCommand → List Event → DataCommand
  | m, [] => m
  | _, .modeCmd :: t => modeAfter .command t
  | _, .modeData :: t => modeAfter .data t
  | m, .sel :: t => modeAfter m t
  | m, .desel :: t => modeAfter m t
  | m, .send _ :: t => modeAfter m t

/-- The wire view (R28): every byte with the `DC` value in force. -/
def wireView : DataCommand → List Event → List (DataCommand × Byte)
  | _, [] => []
  | m, .send bytes :: t => bytes.map (fun b => (m, b)) ++ wireView m t
  | _, .modeCmd :: t => wireView .command t
  | _, .modeData :: t => wireView .data t
  | m, .sel :: t => wireView m t
  | m, .desel :: t => wireView m t

/-- A frame of the frame view (R28): a mode and a byte list. -/
structure Frame where
  mode : DataCommand
  bytes : List Byte
deriving DecidableEq, Repr

/-- The frame view (R28): the trace cut at every `DESEL`, from the mode and the bytes gathered so far. -/
def frameView : DataCommand → List Byte → List Event → List Frame
  | _, _, [] => []
  | m, acc, .send bytes :: t => frameView m (acc ++ bytes) t
  | m, acc, .desel :: t => ⟨m, acc⟩ :: frameView m [] t
  | _, acc, .modeCmd :: t => frameView .command acc t
  | _, acc, .modeData :: t => frameView .data acc t
  | m, acc, .sel :: t => frameView m acc t

/-! ### Well-formedness of a trace -/

/-- Where a trace stands inside a group `SEL, mode, SEND+, DESEL` (R28). -/
inductive FramePhase where
  | idle
  | selected
  | moded
  | sending
deriving DecidableEq, Repr

/-- The next phase, none where R28 forbids the event. -/
def FramePhase.after : FramePhase → Event → Option FramePhase
  | .idle, .sel => some .selected
  | .selected, .modeCmd => some .moded
  | .selected, .modeData => some .moded
  | .moded, .send (_ :: _) => some .sending
  | .sending, .send (_ :: _) => some .sending
  | .sending, .desel => some .idle
  | _, _ => none

/-- The phase after a list of events. -/
def FramePhase.afterAll : FramePhase → List Event → Option FramePhase
  | p, [] => some p
  | p, e :: t =>
    match p.after e with
    | some q => q.afterAll t
    | none => none

/-- R28: the trace is a concatenation of groups `SEL, (MODE_CMD or MODE_DATA), SEND+, DESEL`. -/
abbrev Framed (t : List Event) : Prop := FramePhase.idle.afterAll t = some .idle

end Sys2Proof.Machine
end

