-- ==== Sys2Proof/Machine/Display.lean ====
section
/-! DEFINITION. The controller's pixel memory as the optional ghost of 20_memory.md R51: what a claim about the display may
assume, and nothing more. The block reads none of this. -/

namespace Sys2Proof.Machine

/-- The transport port's answer to a send (R183). That there always is one is TRANSPORT_COMPLETES (R184; log 2). -/
inductive SendAnswer where
  | success
  | failure
deriving DecidableEq, Repr

/-- What lies outside the block, all of it free: claims quantify over environments. -/
structure Environment where
  /-- `CONTROLLER_READY`: the host completed the boot sequence (R201). -/
  controllerReady : Prop
  /-- `PORT_EXCLUSIVE`: no other agent drove the transport port (R206). -/
  portExclusive : Prop
  /-- The controller's real column-range command byte. -/
  columnCommand : Byte
  /-- The controller's real row-range command byte. -/
  rowCommand : Byte
  /-- The controller's real memory-write command byte. -/
  memoryWriteCommand : Byte
  /-- The answer to the n-th send since reset, counted from 0: a draw (U3). -/
  answer : Nat → SendAnswer
  /-- `IMG` after a trace: a map from (column, row) to colour. -/
  image : List Event → U16 → U16 → U16

/-- The wire parameters equal the controller's real command bytes (R51, R210). -/
def Environment.CommandsAgree (env : Environment) (cfg : Config) : Prop :=
  cfg.opcCol = env.columnCommand ∧ cfg.opcRow = env.rowCommand ∧ cfg.opcMemwr = env.memoryWriteCommand

/-- `SENDS_SUCCEEDED`: every send of `after` that is not one of `before` was reported successful (R51, R183). -/
def Environment.SendsSucceeded (env : Environment) (before after : List Event) : Prop :=
  ∀ n, sendCount before ≤ n → n < sendCount after → env.answer n = .success

/-- The premises of R51 that do not speak of sends. -/
def Environment.Premises (env : Environment) (cfg : Config) : Prop :=
  env.controllerReady ∧ env.portExclusive ∧ env.CommandsAgree cfg

/-- `(col, row)` lies in the window. -/
def inWindow (x1 y1 x2 y2 col row : U16) : Prop := x1 ≤ col ∧ col ≤ x2 ∧ y1 ≤ row ∧ row ≤ y2

/-- The caller contract of R204: an ordered window inside the panel. -/
def onPanel (panel : Geometry) (x1 y1 x2 y2 : U16) : Prop :=
  x1 ≤ x2 ∧ x2 < panel.width ∧ y1 ≤ y2 ∧ y2 < panel.height

/-- The events of a window followed at once by a burst of exactly its pixel count. -/
def fillEvents (cfg : Config) (x1 y1 x2 y2 color : U16) : List Event :=
  windowEvents cfg x1 y1 x2 y2 ++ burstEvents cfg color ((x2.toNat - x1.toNat + 1) * (y2.toNat - y1.toNat + 1))

/-- Events that are nothing but filled windows inside the panel, one after another. -/
inductive DrawnOnPanel (cfg : Config) (panel : Geometry) : List Event → Prop where
  | nothing : DrawnOnPanel cfg panel []
  | window {drawn : List Event} {x1 y1 x2 y2 color : U16} : DrawnOnPanel cfg panel drawn → onPanel panel x1 y1 x2 y2 →
      DrawnOnPanel cfg panel (drawn ++ fillEvents cfg x1 y1 x2 y2 color)

/-- The law of R51 within the contract of R204, from a trace `base` on: after nothing but filled windows inside the panel, one
more of them shows its colour on its window and leaves `IMG` as it was elsewhere. `panel` is `GEOM` as it stands after `base`. No
law for anything else: a reversed window or one that leaves the panel (R204, U6), another length (U7), several bursts after one
window (U24), a controller whose direction `GEOM` does not follow (R205). That R51 is read with the bounds of R204, which it does
not repeat, is log 18. -/
def Environment.ImageLaw (env : Environment) (cfg : Config) (panel : Geometry) (base : List Event) : Prop :=
  env.Premises cfg → Framed base →
  ∀ (drawn : List Event) (x1 y1 x2 y2 color : U16),
    DrawnOnPanel cfg panel drawn → onPanel panel x1 y1 x2 y2 →
    let t := base ++ drawn
    let t' := t ++ fillEvents cfg x1 y1 x2 y2 color
    env.SendsSucceeded t t' →
    ∀ col row : U16,
      (inWindow x1 y1 x2 y2 col row → env.image t' col row = color) ∧
      (¬ inWindow x1 y1 x2 y2 col row → env.image t' col row = env.image t col row)

end Sys2Proof.Machine
end

