-- ==== Sys2Proof/Machine/HostInterface.lean ====
section
/-! DEFINITION. What the host does to the block (R200, R201, R206): places a program, drives `RESET`, replays the boot script;
and runs of several operations. -/

namespace Sys2Proof.Machine

/-- The host's list of command words is replaced (D6). -/
def State.withProgram (program : List CommandWord) (s : State) : State := { s with program := program }

/-- The host drives the input `RESET` (R200). Releasing an asserted `RESET` leaves the state of R36, however short the assertion
was: the spec gives no shortest time, so that any assertion resets is the model's choice (DESIGN CHOICE, log 15). -/
def State.driveReset (level : Bool) (s : State) : State :=
  if level then { s with resetIn := true }
  else if s.resetIn then State.ofReset s.cfg s.program
  else s

/-- The initialization script as operations (R201 (2)): each pair is one WRCMD followed by one WRPAR per parameter byte. The
script is the host's; nothing is assumed of its content (U21). -/
def bootScript (script : List (Byte × List Byte)) : List Instr :=
  script.flatMap fun p => .wrcmd p.1 :: p.2.map Instr.wrpar

/-- The duties of R201 (2) and (3) as command words: the script, then one SETORI. -/
def bootProgram (script : List (Byte × List Byte)) (mode : U16) : List CommandWord :=
  (bootScript script ++ [Instr.setori mode]).map encode

/-- Operations executed one after another (R58), stopping at the first that does not answer a next state. -/
def execAll : List Instr → State → Host.Outcome State Fault Refusal
  | [], s => .next s
  | i :: is, s =>
    match exec i s with
    | .next t => execAll is t
    | .fault r => .fault r
    | .refused r => .refused r

/-- A number of steps, stopping at the first that does not answer a next state. -/
def steps : Nat → State → Host.Outcome State Fault Refusal
  | 0, s => .next s
  | n + 1, s =>
    match step s with
    | .next t => steps n t
    | .fault r => .fault r
    | .refused r => .refused r

end Sys2Proof.Machine
end

