-- ==== Sys2Proof/Safety.lean ====
section
/-! DEFINITION. What holds of every state between two operations, and the classes of operations that claims speak of, and the
effects that several claims share. -/

namespace Sys2Proof.Machine

/-- Every cell of the burst buffer lies below `BURST_CAP` (R52). -/
abbrev State.BufferInRange (s : State) : Prop := ∀ p ∈ s.bb, p.1 < s.cfg.burstCap

/-- The invariant of every reachable state: the configuration is one of the spec's (R210), `GEOM` is one of the two pairs (R22),
the block is idle with chip-select released (R26), the burst buffer is canonical and within its capacity (R52), the trace is a
concatenation of whole frames (R28), `DC` is the mode the trace left (R27), and `pc` is within the host's list (R32). -/
structure State.Inv (s : State) : Prop where
  config : s.cfg.wellFormed = true
  geometry : s.geom.Legal
  idle : s.busy = false
  released : s.cs = .deasserted
  canonical : s.bb.wf = true
  inRange : s.BufferInRange
  framed : Framed s.trace
  mode : modeAfter (State.ofReset s.cfg s.program).dc s.trace = s.dc
  pcInList : s.pc ≤ s.program.length

/-- The operations that read `GEOM` (R202): the rasterizer's. -/
def readsGeometry : Instr → Bool
  | .wrcmd _ => false
  | .wrpar _ => false
  | .setwin _ _ _ _ => false
  | .setori _ => false
  | .burst _ _ => false
  | .pixel _ _ _ => true
  | .rectf _ _ _ _ _ => true
  | .hline _ _ _ _ => true
  | .vline _ _ _ _ => true
  | .recth _ _ _ _ _ => true
  | .rectfc _ _ _ _ _ => true
  | .circh _ _ _ _ => true
  | .circf _ _ _ _ => true

/-- SETORI with a mode in 0..3, the operation that settles `GEOM` (R202). -/
def settlesGeometry : Instr → Bool
  | .setori mode => decide (mode ≤ 3)
  | .wrcmd _ => false
  | .wrpar _ => false
  | .setwin _ _ _ _ => false
  | .burst _ _ => false
  | .pixel _ _ _ => false
  | .rectf _ _ _ _ _ => false
  | .hline _ _ _ _ => false
  | .vline _ _ _ _ => false
  | .recth _ _ _ _ _ => false
  | .rectfc _ _ _ _ _ => false
  | .circh _ _ _ _ => false
  | .circf _ _ _ _ => false

/-- R202, R201 (3): no word that reads `GEOM` stands before the first one that settles it. ILLEGAL words do neither. -/
def orientsFirst : List CommandWord → Bool
  | [] => true
  | w :: ws =>
    match decode w with
    | .illegal _ => orientsFirst ws
    | .operation i => settlesGeometry i || (!readsGeometry i && orientsFirst ws)

/-- The state that later operations or the observation can depend on (R20): "all other state is dead at the end of every
operation". Two states agree on it. -/
def State.SameLive (s t : State) : Prop :=
  s.geom = t.geom ∧ s.cs = t.cs ∧ s.dc = t.dc ∧ s.trace = t.trace ∧ s.pc = t.pc ∧ s.busy = t.busy ∧
    s.program = t.program ∧ s.resetIn = t.resetIn ∧ s.cfg = t.cfg

/-- The colour a drawing operation carries in field `E` (R80); 0 for the operations that draw nothing. -/
def drawingColor : Instr → U16
  | .wrcmd _ => 0
  | .wrpar _ => 0
  | .setwin _ _ _ _ => 0
  | .setori _ => 0
  | .burst _ _ => 0
  | .pixel _ _ color => color
  | .rectf _ _ _ _ color => color
  | .hline _ _ _ color => color
  | .vline _ _ _ color => color
  | .recth _ _ _ _ color => color
  | .rectfc _ _ _ _ color => color
  | .circh _ _ _ color => color
  | .circf _ _ _ color => color

/-- An operation of which nothing is left but its end (R32): `pc` advanced, `BUSY` cleared, every other field as before. -/
def State.onlyAdvanced (s : State) : State := { s with pc := s.pc + 1, busy := false }

/-- An operation that fills the `w` by `h` pixels at `(x, y)` and no more (R141): the window, one burst of `w * h` pixels, the
buffer's first `min (2 * w * h) BURST_CAP` bytes holding the colour and every other byte as before, chip-select released, data
mode; of the working values only the burst's and the clamp's may change. That the clamp's hold the clamped extents and the count
afterwards is the model's reading of values that R31 calls dead (log 8). -/
def FillsRectangle (x y w h : Nat) (color : U16) (s t : State) : Prop :=
  t.trace = s.trace ++
      (windowEvents s.cfg (.ofNat 16 x) (.ofNat 16 y) (.ofNat 16 (x + w - 1)) (.ofNat 16 (y + h - 1)) ++
        burstEvents s.cfg color (w * h)) ∧
    (∀ a, t.bb.read a =
      if a < min (2 * (w * h)) s.cfg.burstCap then (if a % 2 = 0 then hi8 color else lo8 color) else s.bb.read a) ∧
    t.clampWork = ⟨.ofNat 16 w, .ofNat 16 h, .ofNat 32 (w * h)⟩ ∧
    t = { s with
            trace := t.trace
            cs := .deasserted
            dc := .data
            bb := t.bb
            burstWork := t.burstWork
            clampWork := t.clampWork
            pc := s.pc + 1
            busy := false }

/-- An operation of one colour that appended `ev`, as its output registers and the buffer show it: chip-select released and data
mode if it emitted anything, the buffer filled as far as its longest send and every other byte as before. -/
def EmitsInColor (color : U16) (ev : List Event) (s t : State) : Prop :=
  t.trace = s.trace ++ ev ∧
    t.cs = (if ev = [] then s.cs else .deasserted) ∧
    t.dc = (if ev = [] then s.dc else .data) ∧
    ∀ a, t.bb.read a = if a < longestSend ev then (if a % 2 = 0 then hi8 color else lo8 color) else s.bb.read a

/-- What is seen of an operation under R51: if all its sends succeed, the pixels of the set show the colour and every other pixel
is as before. -/
def Paints (env : Environment) (pixels : U16 → U16 → Prop) (color : U16) (s t : State) : Prop :=
  env.SendsSucceeded s.trace t.trace →
    ∀ col row : U16,
      (pixels col row → env.image t.trace col row = color) ∧
      (¬ pixels col row → env.image t.trace col row = env.image s.trace col row)

/-- An operation that answers a next state, with the number of events and bytes it appended (R14, R212). -/
def Appends (o : Host.Outcome State Fault Refusal) (s : State) (events bytes : Nat) : Prop :=
  ∃ t ev, o = .next t ∧ t.trace = s.trace ++ ev ∧ ev.length = events ∧ byteCount ev = bytes

/-! ### The circle loops as they are written in R160 and R161 -/

/-- The two tests of a step of R160, in their order, from the values `h` to the values `h'`; the middle values are those between
the tests. -/
def HollowUpdate (r : Int) (h h' : Hollow) : Prop :=
  ∃ y err dy : Int,
    (h.err ≤ 0 → y = h.y + 1 ∧ err = h.err + h.dy ∧ dy = h.dy + 2) ∧
    (0 < h.err → y = h.y ∧ err = h.err ∧ dy = h.dy) ∧
    (0 < err → h'.x = h.x - 1 ∧ h'.dx = h.dx + 2 ∧ h'.err = err + h'.dx - 2 * r) ∧
    (err ≤ 0 → h'.x = h.x ∧ h'.dx = h.dx ∧ h'.err = err) ∧
    h'.y = y ∧ h'.dy = dy

/-- The loop of R160, `while x >= y`: from the given values it plots the listed offsets in order and ends at the last values. -/
inductive HollowLoop (r : Int) : Hollow → List (Int × Int) → Hollow → Prop where
  | done {h : Hollow} : h.x < h.y → HollowLoop r h [] h
  | step {h h' fin : Hollow} {rest : List (Int × Int)} : h.y ≤ h.x → HollowUpdate r h h' → HollowLoop r h' rest fin →
      HollowLoop r h
        ((h.x, h.y) :: (h.y, h.x) :: (-h.y, h.x) :: (-h.x, h.y) ::
          (-h.x, -h.y) :: (-h.y, -h.x) :: (h.y, -h.x) :: (h.x, -h.y) :: rest) fin

/-- A loop `for i from i to last` of R161 over one span pair, ascending and inclusive. -/
inductive SpanLoop (last row : Int) : Int → List (Int × Int) → Prop where
  | done {i : Int} : last < i → SpanLoop last row i []
  | step {i : Int} {rest : List (Int × Int)} : i ≤ last → SpanLoop last row (i + 1) rest →
      SpanLoop last row i ((i, row) :: (i, -row) :: rest)

/-- The updates of a step of R161, from the values `f` to the values `f'`. -/
def FilledUpdate (f f' : Filled) : Prop :=
  f'.y = f.y + 1 ∧ f'.yChange = f.yChange + 2 ∧
    (0 < 2 * (f.radiusError + f.yChange) + f.xChange →
      f'.x = f.x - 1 ∧ f'.radiusError = f.radiusError + f.yChange + f.xChange ∧ f'.xChange = f.xChange + 2) ∧
    (2 * (f.radiusError + f.yChange) + f.xChange ≤ 0 →
      f'.x = f.x ∧ f'.radiusError = f.radiusError + f.yChange ∧ f'.xChange = f.xChange)

/-- The loop of R161, `while x >= y`. -/
inductive FilledLoop : Filled → List (Int × Int) → Filled → Prop where
  | done {f : Filled} : f.x < f.y → FilledLoop f [] f
  | step {f f' fin : Filled} {wide narrow rest : List (Int × Int)} : f.y ≤ f.x →
      SpanLoop f.x f.y (-f.x) wide → SpanLoop f.y f.x (-f.y) narrow → FilledUpdate f f' → FilledLoop f' rest fin →
      FilledLoop f (wide ++ narrow ++ rest) fin

end Sys2Proof.Machine
end

