-- ==== Sys2Proof/Certificates/Slice0/Obligations.lean ====
section
/-! DEFINITION. The statements for the provers, each a claim about the model; the rules of spec/ they come from are in
OBLIGATIONS.json. -/

open Sys2Proof Sys2Proof.Machine

/-! ### Reset, the step, and the invariant -/

/-- R36: what the spec fixes of the state after reset, whatever the parameters and the program, and the same of `State.reset`. -/
def Obligations.ResetLeavesTheFixedValues : Prop :=
  (∀ (cfg : Config) (program : List CommandWord),
    let s := State.ofReset cfg program
    s.geom = cfg.resetGeom ∧ s.geom.Legal ∧ s.cs = .deasserted ∧ s.trace = [] ∧ s.pc = 0 ∧ s.busy = false) ∧
  State.reset = State.ofReset Config.default []

/-- The invariant holds at reset, for every configuration of the spec and every program. -/
def Obligations.ResetStateSatisfiesInvariant : Prop :=
  State.reset.Inv ∧
    ∀ (cfg : Config) (program : List CommandWord), cfg.wellFormed = true → (State.ofReset cfg program).Inv

/-- R22, R26, R27, R28, R32, R52 in one invariant: whatever word a step runs, the invariant still holds after it. Its clause on
`DC` starts from the value of log 5. -/
def Obligations.EveryStepKeepsInvariant : Prop :=
  ∀ s t : State, s.Inv → step s = .next t → t.Inv

/-- R22: `GEOM` is one of the two pairs at reset, and every step keeps it so. -/
def Obligations.GeometryIsAlwaysOneOfTwoPairs : Prop :=
  (∀ (cfg : Config) (program : List CommandWord), cfg.wellFormed = true →
    ((State.ofReset cfg program).geom = ⟨240, 320⟩ ∨ (State.ofReset cfg program).geom = ⟨320, 240⟩)) ∧
  ∀ s t : State, (s.geom = ⟨240, 320⟩ ∨ s.geom = ⟨320, 240⟩) → step s = .next t →
    (t.geom = ⟨240, 320⟩ ∨ t.geom = ⟨320, 240⟩)

/-- R32, R29: an idle block with a word presented latches its fields, sets `BUSY` and runs exactly the decoded operation. -/
def Obligations.StepRunsTheDecodedInstruction : Prop :=
  ∀ (s : State) (w : CommandWord) (i : Instr),
    s.cfg.wellFormed = true → s.resetIn = false → s.busy = false → s.program[s.pc]? = some w →
    decode w = .operation i →
    step s = exec i { s with latches := ⟨w.op, w.a, w.b, w.c, w.d, w.e⟩, busy := true }

/-- The steps that accept no word. `RESET` asserted (R200): no event, and once released exactly the reset state, with a step in
between or with none (log 15: the model holds the block in the reset state, and any assertion resets). `BUSY` set (R32, R184): stuck. No word presented: the block stays idle (the model's choice, log 10). A configuration
outside the spec (R210): refused (log 14). -/
def Obligations.StepsThatAcceptNoWord : Prop :=
  ∀ s : State,
    (s.cfg.wellFormed = false → step s = .refused .configurationOutsideSpec) ∧
    (s.cfg.wellFormed = true → s.resetIn = true →
      ∃ t, step s = .next t ∧ t.trace = [] ∧ t.driveReset false = State.ofReset s.cfg s.program) ∧
    (s.driveReset true).driveReset false = State.ofReset s.cfg s.program ∧
    (s.cfg.wellFormed = true → s.resetIn = false → s.busy = true → step s = .fault .stuckInSend) ∧
    (s.cfg.wellFormed = true → s.resetIn = false → s.busy = false → s.program.length ≤ s.pc → step s = .next s)

/-- R83: a word is ILLEGAL exactly when `RSV` is not 0 or `OP` is none of the thirteen codes, and an ILLEGAL word changes
nothing but `pc`. -/
def Obligations.IllegalWordsOnlyAdvancePc : Prop :=
  (∀ w : CommandWord,
    (∃ why, decode w = .illegal why) ↔
      w.rsv ≠ 0 ∨ w.op ∉ [0x01, 0x02, 0x03, 0x04, 0x05, 0x10, 0x11, 0x12, 0x13, 0x14, 0x15, 0x16, 0x17]) ∧
  ∀ (s : State) (w : CommandWord) (why : Illegal),
    s.cfg.wellFormed = true → s.resetIn = false → s.busy = false → s.program[s.pc]? = some w →
    decode w = .illegal why → step s = .next { s with pc := s.pc + 1 }

/-- The word the host places runs next: the two fixed names of the interface agree (log 21). -/
def Obligations.PlacedWordRunsNext : Prop :=
  ∀ (s : State) (nbits w : Nat) (i : Instr),
    s.cfg.wellFormed = true → nbits ≤ 96 → decodeTableWord nbits w = some i →
    step (s.withFetchWord nbits w) = exec i ((s.withFetchWord nbits w).accept (BitVec.ofNat 96 (w % 2 ^ nbits)))

/-- R32, D6, R184: under TRANSPORT_COMPLETES (log 2) every program runs, without a fault or a refusal, to its end: after `n`
steps `pc` is `n` or the length of the list (the block then stays idle, log 10), and the invariant holds. -/
def Obligations.EveryProgramRunsToItsEnd : Prop :=
  ∀ (cfg : Config) (program : List CommandWord) (n : Nat), cfg.wellFormed = true →
    ∃ t, steps n (State.ofReset cfg program) = .next t ∧ t.Inv ∧ t.pc = min n program.length

/-- R180, R187, R58: every operation answers a next state, with `pc` advanced, `BUSY` cleared and the latches, the program, the
inputs and the parameters as they were (R29, R210); what it appends to the trace is whole frames (R28). -/
def Obligations.EveryOperationCompletes : Prop :=
  ∀ (i : Instr) (s : State), s.cfg.wellFormed = true → s.bb.wf = true →
    ∃ t ev, exec i s = .next t ∧ t.trace = s.trace ++ ev ∧ Framed ev ∧ t.pc = s.pc + 1 ∧ t.busy = false ∧
      t.latches = s.latches ∧ t.program = s.program ∧ t.resetIn = s.resetIn ∧ t.cfg = s.cfg ∧
      (s.cs = .deasserted → t.cs = .deasserted)

/-- R210, R20: no step writes the parameters or the host's program, and a step under a configuration with an odd or too small
`BURST_CAP` is refused. -/
def Obligations.ParametersAreFixedForARun : Prop :=
  (∀ s t : State, step s = .next t → t.cfg = s.cfg ∧ t.program = s.program) ∧
  ∀ s : State, (s.cfg.burstCap % 2 = 1 ∨ s.cfg.burstCap < 2) → step s = .refused .configurationOutsideSpec

/-- R21: outside reset, a step that changes `GEOM` runs a SETORI with a mode in 0..3. -/
def Obligations.OnlySetoriWritesGeometry : Prop :=
  ∀ s t : State, s.resetIn = false → step s = .next t → t.geom ≠ s.geom →
    ∃ w mode, s.program[s.pc]? = some w ∧ decode w = .operation (.setori mode) ∧ mode ≤ 3

/-- R27, R26: an operation that emitted anything leaves chip-select released and `DC` at `command` (WRCMD, SETWIN) or `data`
(all others); an operation that emitted nothing leaves both as they were. -/
def Obligations.OutputRegistersAfterAnOperation : Prop :=
  ∀ (i : Instr) (s t : State), s.cfg.wellFormed = true → s.bb.wf = true → exec i s = .next t →
    (t.trace = s.trace → t.cs = s.cs ∧ t.dc = s.dc) ∧
    (t.trace ≠ s.trace → t.cs = .deasserted ∧
      ((∃ byte, i = .wrcmd byte) ∨ (∃ x1 y1 x2 y2, i = .setwin x1 y1 x2 y2) → t.dc = .command) ∧
      (¬ ((∃ byte, i = .wrcmd byte) ∨ (∃ x1 y1 x2 y2, i = .setwin x1 y1 x2 y2)) → t.dc = .data))

/-- R20: only `GEOM`, the outputs, the trace and the sequencing state carry anything from one operation to the next. Two states
that differ only in the dead state step to states that differ only in the dead state. -/
def Obligations.DeadStateNeverMatters : Prop :=
  ∀ s s' t : State, s.SameLive s' → s.bb.wf = true → s'.bb.wf = true → step s = .next t →
    ∃ t', step s' = .next t' ∧ t.SameLive t'

/-- R202: WRCMD, WRPAR, SETWIN, BURST and SETORI do not read `GEOM`: with another geometry they do the same, and leave that
geometry unless they settle it. -/
def Obligations.FramerAndBurstDoNotReadGeometry : Prop :=
  ∀ (i : Instr) (s t : State) (g : Geometry), readsGeometry i = false → exec i s = .next t →
    exec i { s with geom := g } = .next { t with geom := if settlesGeometry i then t.geom else g }

/-- R202: the trace of a program that reads `GEOM` only after a SETORI with a mode in 0..3 does not depend on `RESET_GEOM`; that of
a program that draws first may. -/
def Obligations.OrientedProgramsAreDetermined : Prop :=
  (∀ (cfg : Config) (program : List CommandWord) (n : Nat), cfg.wellFormed = true → orientsFirst program = true →
    ∃ t t', steps n (State.ofReset { cfg with resetHorizontal := false } program) = .next t ∧
      steps n (State.ofReset { cfg with resetHorizontal := true } program) = .next t' ∧
      t.trace = t'.trace ∧ t.pc = t'.pc) ∧
  ∀ cfg : Config, cfg.wellFormed = true →
    ∃ program t t', steps 1 (State.ofReset { cfg with resetHorizontal := false } program) = .next t ∧
      steps 1 (State.ofReset { cfg with resetHorizontal := true } program) = .next t' ∧ t.trace ≠ t'.trace

/-! ### Encoding -/

/-- R85: decoding an encoded operation gives it back, whatever its operands. -/
def Obligations.DecodeOfEncodeIsTheInstruction : Prop :=
  ∀ i : Instr, decode (encode i) = .operation i

/-- R85, R81: encoding the decoded operation gives the word back but for its ignored fields, which become 0. -/
def Obligations.EncodeOfDecodeClearsOnlyIgnoredFields : Prop :=
  ∀ (w : CommandWord) (i : Instr), decode w = .operation i → encode i = w &&& i.usedBits

/-- R82, R90: words written out from the operation table decode to the operations they stand for. -/
def Obligations.WrittenWordsDecode : Prop :=
  decode 0x0100AB290000000000000000 = .operation (.wrcmd 0x29) ∧
  decode 0x020000550000000000000000 = .operation (.wrpar 0x55) ∧
  decode 0x0300123456789ABCDEF00000 = .operation (.setwin 0x1234 0x5678 0x9ABC 0xDEF0) ∧
  decode 0x040001000000000000000000 = .operation (.setori 256) ∧
  decode 0x05000000000000012C00F81F = .operation (.burst 0xF81F 76800) ∧
  decode 0x10000005000711112222F800 = .operation (.pixel 5 7 0xF800) ∧
  decode 0x110000EE0000000A000A07E0 = .operation (.rectf 238 0 10 10 0x07E0) ∧
  decode 0x120000E6000500320000FFFF = .operation (.hline 230 5 50 0xFFFF) ∧
  decode 0x13000000013E00070005001F = .operation (.vline 0 318 5 0x001F) ∧
  decode 0x140000050005000A0014FFFF = .operation (.recth 5 5 10 20 0xFFFF) ∧
  decode 0x1500000A00140005000507E0 = .operation (.rectfc 10 20 5 5 0x07E0) ∧
  decode 0x16000064006400020000F800 = .operation (.circh 100 100 2 0xF800) ∧
  decode 0x17000064006400010000001F = .operation (.circf 100 100 1 0x001F)

/-- R90: every operation has a line that assembles to its encoding; a line with a wrong number of operands or an operand outside
its field's range assembles to nothing, and every other line to the encoding of an operation. -/
def Obligations.AssemblerNeverTruncates : Prop :=
  (∀ i : Instr, AsmLine.assemble (disassemble i) = some (encode i)) ∧
  (∀ l : AsmLine, l.wellFormed = false → AsmLine.assemble l = none) ∧
  ∀ l : AsmLine, l.wellFormed = true → ∃ i, AsmLine.assemble l = some (encode i) ∧ disassemble i = l

/-! ### Framer -/

/-- R110: one command frame, `DC` at `command`, nothing else but `pc` and `BUSY`. -/
def Obligations.WrcmdSendsOneCommandFrame : Prop :=
  (∀ a b c d e : U16, decode (.ofFields 0x01 0 a b c d e) = .operation (.wrcmd (a.extractLsb' 0 8))) ∧
  ∀ (byte : Byte) (s : State),
    exec (.wrcmd byte) s =
      .next { s with
        trace := s.trace ++ [.sel, .modeCmd, .send [byte], .desel]
        cs := .deasserted
        dc := .command
        pc := s.pc + 1
        busy := false }

/-- R111: one parameter frame, `DC` at `data`, nothing else but `pc` and `BUSY`. -/
def Obligations.WrparSendsOneParameterFrame : Prop :=
  (∀ a b c d e : U16, decode (.ofFields 0x02 0 a b c d e) = .operation (.wrpar (a.extractLsb' 0 8))) ∧
  ∀ (byte : Byte) (s : State),
    exec (.wrpar byte) s =
      .next { s with
        trace := s.trace ++ [.sel, .modeData, .send [byte], .desel]
        cs := .deasserted
        dc := .data
        pc := s.pc + 1
        busy := false }

/-- R112, R87, R53: the eleven frames of a window, every byte in its own frame, coordinates most significant byte first, for
every operand value; `GEOM` is neither read nor written. -/
def Obligations.SetwinSendsElevenFrames : Prop :=
  (∀ a b c d e : U16, decode (.ofFields 0x03 0 a b c d e) = .operation (.setwin a b c d)) ∧
  ∀ (x1 y1 x2 y2 : U16) (s : State),
    exec (.setwin x1 y1 x2 y2) s =
      .next { s with
        trace := s.trace ++
          [commandFrame s.cfg.opcCol,
            parameterFrame (hi8 x1), parameterFrame (lo8 x1), parameterFrame (hi8 x2), parameterFrame (lo8 x2),
            commandFrame s.cfg.opcRow,
            parameterFrame (hi8 y1), parameterFrame (lo8 y1), parameterFrame (hi8 y2), parameterFrame (lo8 y2),
            commandFrame s.cfg.opcMemwr].flatten
        cs := .deasserted
        dc := .command
        pc := s.pc + 1
        busy := false }

/-- R113: for each mode 0 to 3 the two frames and the geometry pair of the table; for every other mode nothing at all. -/
def Obligations.SetoriFollowsTheModeTable : Prop :=
  let oriented (s : State) (byte : Byte) (g : Geometry) : State :=
    { s with
        trace := s.trace ++
          [.sel, .modeCmd, .send [s.cfg.opcMadctl], .desel, .sel, .modeData, .send [byte], .desel]
        cs := .deasserted
        dc := .data
        geom := g
        pc := s.pc + 1
        busy := false }
  (∀ a b c d e : U16, decode (.ofFields 0x04 0 a b c d e) = .operation (.setori a)) ∧
  ∀ s : State,
    exec (.setori 0) s = .next (oriented s s.cfg.oriByte0 ⟨240, 320⟩) ∧
    exec (.setori 1) s = .next (oriented s s.cfg.oriByte1 ⟨320, 240⟩) ∧
    exec (.setori 2) s = .next (oriented s s.cfg.oriByte2 ⟨240, 320⟩) ∧
    exec (.setori 3) s = .next (oriented s s.cfg.oriByte3 ⟨320, 240⟩) ∧
    ∀ mode : U16, 3 < mode → exec (.setori mode) s = .next s.onlyAdvanced

/-- R114: events, bytes, selects and the wire view of the frames, a window and an orientation write. -/
def Obligations.FramerTraceSizes : Prop :=
  (∀ byte, (commandFrame byte).length = 4 ∧ byteCount (commandFrame byte) = 1 ∧
    (commandFrame byte).count .sel = 1 ∧ (commandFrame byte).count .desel = 1) ∧
  (∀ byte, (parameterFrame byte).length = 4 ∧ byteCount (parameterFrame byte) = 1 ∧
    (parameterFrame byte).count .sel = 1 ∧ (parameterFrame byte).count .desel = 1) ∧
  (∀ (cfg : Config) (x1 y1 x2 y2 : U16) (m : DataCommand),
    (windowEvents cfg x1 y1 x2 y2).length = 44 ∧ byteCount (windowEvents cfg x1 y1 x2 y2) = 11 ∧
    (windowEvents cfg x1 y1 x2 y2).count .sel = 11 ∧ (windowEvents cfg x1 y1 x2 y2).count .desel = 11 ∧
    wireView m (windowEvents cfg x1 y1 x2 y2) =
      [(.command, cfg.opcCol), (.data, hi8 x1), (.data, lo8 x1), (.data, hi8 x2), (.data, lo8 x2),
        (.command, cfg.opcRow), (.data, hi8 y1), (.data, lo8 y1), (.data, hi8 y2), (.data, lo8 y2),
        (.command, cfg.opcMemwr)]) ∧
  ∀ (s : State) (mode : U16), mode ≤ 3 → Appends (exec (.setori mode) s) s 8 2

/-- R115: SETWIN is the eleven single-byte operations and SETORI the two, but for `pc` and, for SETORI, `GEOM`. -/
def Obligations.WindowEqualsElevenSingleByteOperations : Prop :=
  ∀ s : State,
    (∀ x1 y1 x2 y2 : U16, ∃ t u,
      exec (.setwin x1 y1 x2 y2) s = .next t ∧
      execAll [.wrcmd s.cfg.opcCol, .wrpar (hi8 x1), .wrpar (lo8 x1), .wrpar (hi8 x2), .wrpar (lo8 x2),
        .wrcmd s.cfg.opcRow, .wrpar (hi8 y1), .wrpar (lo8 y1), .wrpar (hi8 y2), .wrpar (lo8 y2),
        .wrcmd s.cfg.opcMemwr] s = .next u ∧
      u.trace = t.trace ∧ u = { t with pc := u.pc }) ∧
    ∀ mode : U16, mode ≤ 3 → ∃ t u,
      exec (.setori mode) s = .next t ∧
      execAll [.wrcmd s.cfg.opcMadctl, .wrpar (oriByte s.cfg mode)] s = .next u ∧
      u.trace = t.trace ∧ u = { t with pc := u.pc, geom := u.geom }

/-- R201 (2), R205: the host's script as WRCMD and WRPAR operations appends exactly its bytes, each in its own frame, and never
touches `GEOM`, whatever its content. -/
def Obligations.BootScriptIsSentByteByByte : Prop :=
  ∀ (script : List (Byte × List Byte)) (s : State), ∃ t,
    execAll (bootScript script) s = .next t ∧
    t.trace = s.trace ++ script.flatMap (fun p => commandFrame p.1 ++ p.2.flatMap parameterFrame) ∧
    t.pc = s.pc + (script.map fun p => 1 + p.2.length).sum ∧
    t = { s with trace := t.trace, cs := t.cs, dc := t.dc, pc := t.pc, busy := t.busy }

/-! ### Burst -/

/-- R130, R132, R133: the fill of the buffer, the sends and the frame of a burst with `count > 0`; a burst of no pixels does
nothing. That the burst's working values then hold what the rule assigned is the model's reading (log 8). -/
def Obligations.BurstSendsTheColorInBlocks : Prop :=
  (∀ a b c d e : U16, decode (.ofFields 0x05 0 a b c d e) = .operation (.burst e (c ++ d))) ∧
  (∀ (color : U16) (s : State), exec (.burst color 0) s = .next s.onlyAdvanced) ∧
  ∀ (color : U16) (count : U32) (s : State), s.cfg.wellFormed = true → s.bb.wf = true → count ≠ 0 →
    let totalBytes := 2 * count.toNat
    let bufferSize := min totalBytes s.cfg.burstCap
    let fullBlocks := totalBytes / bufferSize
    let remainder := totalBytes % bufferSize
    let stream (n : Nat) : List Byte := (List.range n).map fun i => if i % 2 = 0 then hi8 color else lo8 color
    ∃ t, exec (.burst color count) s = .next t ∧
      t.trace = s.trace ++ ([.sel, .modeData] ++ List.replicate fullBlocks (.send (stream bufferSize)) ++
        (if 0 < remainder then [.send (stream remainder)] else []) ++ [.desel]) ∧
      (∀ a, t.bb.read a = if a < bufferSize then (if a % 2 = 0 then hi8 color else lo8 color) else s.bb.read a) ∧
      t.burstWork.totalBytes = totalBytes ∧ t.burstWork.bufferSize = bufferSize ∧
      t.burstWork.fullBlocks = fullBlocks ∧ t.burstWork.remainder = remainder ∧
      t = { s with
              trace := t.trace
              cs := .deasserted
              dc := .data
              bb := t.bb
              burstWork := t.burstWork
              pc := s.pc + 1
              busy := false }

/-- R131 (a) to (g): the arithmetic of a burst, for every count. -/
def Obligations.BurstArithmeticIsExact : Prop :=
  (∀ (cfg : Config) (color : U16) (count : Nat), cfg.wellFormed = true → 0 < count →
    let k := burstArithmetic cfg.burstCap count
    let ev := burstEvents cfg color count
    k.fullBlocks * k.bufferSize + k.remainder = 2 * count ∧ 2 ≤ k.bufferSize ∧ k.remainder < k.bufferSize ∧
    (2 * count ≤ cfg.burstCap → k.bufferSize = 2 * count ∧ k.fullBlocks = 1 ∧ k.remainder = 0) ∧
    (cfg.burstCap < 2 * count →
      k.bufferSize = cfg.burstCap ∧ k.fullBlocks = 2 * count / cfg.burstCap ∧ 1 ≤ k.fullBlocks ∧
      k.remainder = 2 * count % cfg.burstCap) ∧
    k.bufferSize % 2 = 0 ∧ k.remainder % 2 = 0 ∧
    sentBytes ev = (List.replicate count [hi8 color, lo8 color]).flatten ∧
    ev.length = 3 + k.fullBlocks + (if 0 < k.remainder then 1 else 0) ∧ byteCount ev = 2 * count ∧
    ev.count .sel = 1 ∧ ev.count .desel = 1) ∧
  (∀ (g : Geometry) (x y w h : U16), g.Legal → offPanel g x y = false →
    (clamp g.width x w).toNat * (clamp g.height y h).toNat ≤ 76800) ∧
  (burstArithmetic 1024 76800).totalBytes = 153600 ∧ (burstArithmetic 1024 76800).fullBlocks = 150 ∧
  (burstArithmetic 1024 76800).remainder = 0

/-- R131 (e), R134, R54: on the wire a burst is `count` pixels, high byte first, all in data mode, whatever `BURST_CAP`; and no
send splits a pixel or exceeds `BURST_CAP`. -/
def Obligations.BurstWireViewDoesNotDependOnCapacity : Prop :=
  ∀ (cfg : Config) (color : U16) (count : Nat) (m : DataCommand), cfg.wellFormed = true →
    wireView m (burstEvents cfg color count) =
      (List.replicate count [(DataCommand.data, hi8 color), (DataCommand.data, lo8 color)]).flatten ∧
    ∀ bytes, Event.send bytes ∈ burstEvents cfg color count →
      bytes.length % 2 = 0 ∧ 2 ≤ bytes.length ∧ bytes.length ≤ cfg.burstCap

/-! ### Pixel, lines, rectangles -/

/-- R140: off the panel nothing; on it the 1 by 1 window and the colour. -/
def Obligations.PixelDrawsOneClippedPixel : Prop :=
  (∀ a b c d e : U16, decode (.ofFields 0x10 0 a b c d e) = .operation (.pixel a b e)) ∧
  ∀ (x y color : U16) (s : State),
    (s.geom.width ≤ x ∨ s.geom.height ≤ y → exec (.pixel x y color) s = .next s.onlyAdvanced) ∧
    (s.cfg.wellFormed = true → s.bb.wf = true → x < s.geom.width → y < s.geom.height →
      ∃ t, exec (.pixel x y color) s = .next t ∧
        t.trace = s.trace ++ (windowEvents s.cfg x y x y ++
          [.sel, .modeData, .send [hi8 color, lo8 color], .desel]) ∧
        (∀ a, t.bb.read a = if a = 0 then hi8 color else if a = 1 then lo8 color else s.bb.read a) ∧
        t = { s with
                trace := t.trace
                cs := .deasserted
                dc := .data
                bb := t.bb
                burstWork := t.burstWork
                pc := s.pc + 1
                busy := false })

/-- R141: origin test, clamp, zero test; then the window and one burst of the clamped rectangle's pixels. That the clamp's working
values then hold what the rule assigned is the model's reading (log 8). -/
def Obligations.RectfFillsTheClampedRectangle : Prop :=
  (∀ a b c d e : U16, decode (.ofFields 0x11 0 a b c d e) = .operation (.rectf a b c d e)) ∧
  ∀ (x y w h color : U16) (s : State),
    (s.geom.width ≤ x ∨ s.geom.height ≤ y → exec (.rectf x y w h color) s = .next s.onlyAdvanced) ∧
    (x < s.geom.width → y < s.geom.height →
      let wEff := min w.toNat (s.geom.width.toNat - x.toNat)
      let hEff := min h.toNat (s.geom.height.toNat - y.toNat)
      (wEff = 0 ∨ hEff = 0 →
        ∃ t, exec (.rectf x y w h color) s = .next t ∧ t = { s.onlyAdvanced with clampWork := t.clampWork }) ∧
      (s.cfg.wellFormed = true → s.bb.wf = true → 0 < wEff → 0 < hEff →
        ∃ t, exec (.rectf x y w h color) s = .next t ∧ FillsRectangle x.toNat y.toNat wEff hEff color s t))

/-- R142 over R141: a run of pixels to the right, clamped in its length only. The clause on the clamp's working values is the
model's reading (log 8). -/
def Obligations.HlineFillsTheClampedRow : Prop :=
  (∀ a b c d e : U16, decode (.ofFields 0x12 0 a b c d e) = .operation (.hline a b c e)) ∧
  ∀ (x y len color : U16) (s : State),
    (s.geom.width ≤ x ∨ s.geom.height ≤ y → exec (.hline x y len color) s = .next s.onlyAdvanced) ∧
    (x < s.geom.width → y < s.geom.height → len = 0 →
      ∃ t, exec (.hline x y len color) s = .next t ∧ t = { s.onlyAdvanced with clampWork := t.clampWork }) ∧
    (s.cfg.wellFormed = true → s.bb.wf = true → x < s.geom.width → y < s.geom.height → len ≠ 0 →
      ∃ t, exec (.hline x y len color) s = .next t ∧
        FillsRectangle x.toNat y.toNat (min len.toNat (s.geom.width.toNat - x.toNat)) 1 color s t) ∧
    exec (.hline x y len color) s = exec (.rectf x y len 1 color) s

/-- R143 over R141: a run of pixels downwards, clamped in its length only. The clause on the clamp's working values is the model's
reading (log 8). -/
def Obligations.VlineFillsTheClampedColumn : Prop :=
  (∀ a b c d e : U16, decode (.ofFields 0x13 0 a b c d e) = .operation (.vline a b d e)) ∧
  ∀ (x y len color : U16) (s : State),
    (s.geom.width ≤ x ∨ s.geom.height ≤ y → exec (.vline x y len color) s = .next s.onlyAdvanced) ∧
    (x < s.geom.width → y < s.geom.height → len = 0 →
      ∃ t, exec (.vline x y len color) s = .next t ∧ t = { s.onlyAdvanced with clampWork := t.clampWork }) ∧
    (s.cfg.wellFormed = true → s.bb.wf = true → x < s.geom.width → y < s.geom.height → len ≠ 0 →
      ∃ t, exec (.vline x y len color) s = .next t ∧
        FillsRectangle x.toNat y.toNat 1 (min len.toNat (s.geom.height.toNat - y.toNat)) color s t) ∧
    exec (.vline x y len color) s = exec (.rectf x y 1 len color) s

/-- R144: the five parts in order, each clipped on its own, over the ordered corners and the absolute deltas. That the corner
working values hold what the rule assigned after the operation is the model's reading (log 8). -/
def Obligations.RecthDrawsFiveParts : Prop :=
  (∀ a b c d e : U16, decode (.ofFields 0x14 0 a b c d e) = .operation (.recth a b c d e)) ∧
  ∀ (x0 y0 x1 y1 color : U16) (s : State), s.cfg.wellFormed = true → s.bb.wf = true →
    let xa : U16 := .ofNat 16 (min x0.toNat x1.toNat)
    let xb : U16 := .ofNat 16 (max x0.toNat x1.toNat)
    let ya : U16 := .ofNat 16 (min y0.toNat y1.toNat)
    let yb : U16 := .ofNat 16 (max y0.toNat y1.toNat)
    let dx : U16 := .ofNat 16 (max x0.toNat x1.toNat - min x0.toNat x1.toNat)
    let dy : U16 := .ofNat 16 (max y0.toNat y1.toNat - min y0.toNat y1.toNat)
    let part (x y w h : U16) : List Event := rectEvents s.cfg s.geom x y w h color
    let ev := part xa ya dx 1 ++ part xa yb dx 1 ++ part xa ya 1 dy ++ part xb ya 1 dy ++
      (if x0 ≠ x1 ∨ y0 ≠ y1 then pixelEvents s.cfg s.geom xb yb color else [])
    ∃ t, exec (.recth x0 y0 x1 y1 color) s = .next t ∧ EmitsInColor color ev s t ∧
      t.cornerWork = ⟨xa, xb, ya, yb, dx, dy⟩ ∧
      t = { s with
              trace := t.trace
              cs := t.cs
              dc := t.dc
              bb := t.bb
              burstWork := t.burstWork
              clampWork := t.clampWork
              cornerWork := t.cornerWork
              pc := s.pc + 1
              busy := false }

/-- R144 (b), (f) and R145: reversed operands do the same as operands in order, and a single point has no outline and no
interior. -/
def Obligations.CornerOrderDoesNotMatter : Prop :=
  ∀ (x0 y0 x1 y1 color : U16) (s : State),
    exec (.recth x0 y0 x1 y1 color) s = exec (.recth x1 y1 x0 y0 color) s ∧
    exec (.recth x0 y0 x1 y1 color) s = exec (.recth x1 y0 x0 y1 color) s ∧
    exec (.rectfc x0 y0 x1 y1 color) s = exec (.rectfc x1 y1 x0 y0 color) s ∧
    exec (.rectfc x0 y0 x1 y1 color) s = exec (.rectfc x1 y0 x0 y1 color) s ∧
    (∃ t, exec (.recth x0 y0 x0 y0 color) s = .next t ∧
      t = { s.onlyAdvanced with clampWork := t.clampWork, cornerWork := t.cornerWork }) ∧
    ∃ t, exec (.rectfc x0 y0 x0 y1 color) s = .next t ∧
      t = { s.onlyAdvanced with clampWork := t.clampWork, cornerWork := t.cornerWork }

/-- R145: the rectangle between the ordered corners, far column and far row excluded, clipped as RECTF. That the working values
then hold what was assigned last, and that `xb` and `yb`, which the rule does not assign, are as before, is the model's choice
(log 8). -/
def Obligations.RectfcFillsBetweenTheCorners : Prop :=
  (∀ a b c d e : U16, decode (.ofFields 0x15 0 a b c d e) = .operation (.rectfc a b c d e)) ∧
  ∀ (x0 y0 x1 y1 color : U16) (s : State),
    let xa := min x0.toNat x1.toNat
    let ya := min y0.toNat y1.toNat
    let dx := max x0.toNat x1.toNat - xa
    let dy := max y0.toNat y1.toNat - ya
    let k : CornerWork := ⟨.ofNat 16 xa, s.cornerWork.xb, .ofNat 16 ya, s.cornerWork.yb, .ofNat 16 dx, .ofNat 16 dy⟩
    let wEff := min dx (s.geom.width.toNat - xa)
    let hEff := min dy (s.geom.height.toNat - ya)
    (s.geom.width.toNat ≤ xa ∨ s.geom.height.toNat ≤ ya ∨ wEff = 0 ∨ hEff = 0 →
      ∃ t, exec (.rectfc x0 y0 x1 y1 color) s = .next t ∧ t.cornerWork = k ∧
        t = { s.onlyAdvanced with clampWork := t.clampWork, cornerWork := t.cornerWork }) ∧
    (s.cfg.wellFormed = true → s.bb.wf = true → xa < s.geom.width.toNat → ya < s.geom.height.toNat →
      0 < wEff → 0 < hEff →
      ∃ t, exec (.rectfc x0 y0 x1 y1 color) s = .next t ∧
        FillsRectangle xa ya wEff hEff color { s with cornerWork := k } t)

/-- R146, R204: a drawing operation emits windows inside the panel, each followed at once by a burst of exactly its pixel count
in the operation's colour, and nothing else. -/
def Obligations.DrawingStaysOnThePanel : Prop :=
  ∀ (i : Instr) (s : State), readsGeometry i = true → s.cfg.wellFormed = true → s.bb.wf = true → s.geom.Legal →
    ∃ (t : State) (parts : List (U16 × U16 × U16 × U16)),
      exec i s = .next t ∧
      t.trace = s.trace ++ parts.flatMap (fun p => windowEvents s.cfg p.1 p.2.1 p.2.2.1 p.2.2.2 ++
        burstEvents s.cfg (drawingColor i)
          ((p.2.2.1.toNat - p.1.toNat + 1) * (p.2.2.2.toNat - p.2.1.toNat + 1))) ∧
      ∀ p ∈ parts, p.1 ≤ p.2.2.1 ∧ p.2.2.1 < s.geom.width ∧ p.2.1 ≤ p.2.2.2 ∧ p.2.2.2 < s.geom.height

/-- R212: the number of events and bytes of every operation and of an ILLEGAL word, row by row of the rule's table. -/
def Obligations.TraceSizesOfEveryOperation : Prop :=
  ∀ s : State, s.cfg.wellFormed = true → s.bb.wf = true →
    let burstLength (n : Nat) : Nat :=
      3 + (2 * n) / min (2 * n) s.cfg.burstCap + (if 0 < (2 * n) % min (2 * n) s.cfg.burstCap then 1 else 0)
    let rectPixels (x y w h : U16) : Nat :=
      if offPanel s.geom x y then 0
      else min w.toNat (s.geom.width.toNat - x.toNat) * min h.toNat (s.geom.height.toNat - y.toNat)
    let rectLength (n : Nat) : Nat := if n = 0 then 0 else 44 + burstLength n
    let rectBytes (n : Nat) : Nat := if n = 0 then 0 else 11 + 2 * n
    let onPanel (cx cy : U16) (offsets : List (Int × Int)) : Nat :=
      offsets.countP fun o => !offPanel s.geom (.ofInt 16 (cx.toNat + o.1)) (.ofInt 16 (cy.toNat + o.2))
    (∀ byte, Appends (exec (.wrcmd byte) s) s 4 1 ∧ Appends (exec (.wrpar byte) s) s 4 1) ∧
    (∀ x1 y1 x2 y2, Appends (exec (.setwin x1 y1 x2 y2) s) s 44 11) ∧
    (∀ mode, mode ≤ 3 → Appends (exec (.setori mode) s) s 8 2) ∧
    (∀ mode, 3 < mode → Appends (exec (.setori mode) s) s 0 0) ∧
    (∀ color, Appends (exec (.burst color 0) s) s 0 0) ∧
    (∀ color count, count ≠ 0 →
      Appends (exec (.burst color count) s) s (burstLength count.toNat) (2 * count.toNat)) ∧
    (∀ x y color, offPanel s.geom x y = false → Appends (exec (.pixel x y color) s) s 48 13) ∧
    (∀ x y color, offPanel s.geom x y = true → Appends (exec (.pixel x y color) s) s 0 0) ∧
    (∀ x y w h color,
      let n := rectPixels x y w h
      Appends (exec (.rectf x y w h color) s) s (rectLength n) (rectBytes n)) ∧
    (∀ x y len color,
      let n := rectPixels x y len 1
      Appends (exec (.hline x y len color) s) s (rectLength n) (rectBytes n)) ∧
    (∀ x y len color,
      let n := rectPixels x y 1 len
      Appends (exec (.vline x y len color) s) s (rectLength n) (rectBytes n)) ∧
    (∀ x0 y0 x1 y1 color,
      let n := rectPixels (minU x0 x1) (minU y0 y1) (maxU x0 x1 - minU x0 x1) (maxU y0 y1 - minU y0 y1)
      Appends (exec (.rectfc x0 y0 x1 y1 color) s) s (rectLength n) (rectBytes n)) ∧
    (∀ x0 y0 x1 y1 color,
      let top := rectPixels (minU x0 x1) (minU y0 y1) (maxU x0 x1 - minU x0 x1) 1
      let bottom := rectPixels (minU x0 x1) (maxU y0 y1) (maxU x0 x1 - minU x0 x1) 1
      let left := rectPixels (minU x0 x1) (minU y0 y1) 1 (maxU y0 y1 - minU y0 y1)
      let right := rectPixels (maxU x0 x1) (minU y0 y1) 1 (maxU y0 y1 - minU y0 y1)
      let corner := (x0 ≠ x1 ∨ y0 ≠ y1) ∧ offPanel s.geom (maxU x0 x1) (maxU y0 y1) = false
      Appends (exec (.recth x0 y0 x1 y1 color) s) s
        (rectLength top + rectLength bottom + rectLength left + rectLength right + (if corner then 48 else 0))
        (rectBytes top + rectBytes bottom + rectBytes left + rectBytes right + (if corner then 13 else 0))) ∧
    (∀ cx cy r color,
      Appends (exec (.circh cx cy r color) s) s
        (48 * onPanel cx cy (hollowOffsets r.toNat)) (13 * onPanel cx cy (hollowOffsets r.toNat)) ∧
      Appends (exec (.circf cx cy r color) s) s
        (48 * onPanel cx cy (filledOffsets r.toNat)) (13 * onPanel cx cy (filledOffsets r.toNat))) ∧
    (∀ (w : CommandWord) (why : Illegal), s.resetIn = false → s.busy = false → s.program[s.pc]? = some w →
      decode w = .illegal why → Appends (step s) s 0 0)

/-! ### Circles -/

/-- R164, R162: the circles are `Plot` over their offset lists, in order, which depend on the radius alone. -/
def Obligations.CirclesPlotTheirOffsets : Prop :=
  (∀ a b c d e : U16, decode (.ofFields 0x16 0 a b c d e) = .operation (.circh a b c e)) ∧
  (∀ a b c d e : U16, decode (.ofFields 0x17 0 a b c d e) = .operation (.circf a b c e)) ∧
  ∀ (cx cy r color : U16) (s : State), s.cfg.wellFormed = true → s.bb.wf = true →
    let plotted (offsets : List (Int × Int)) : List Event :=
      offsets.flatMap fun o =>
        pixelEvents s.cfg s.geom (.ofInt 16 (cx.toNat + o.1)) (.ofInt 16 (cy.toNat + o.2)) color
    (∃ t, exec (.circh cx cy r color) s = .next t ∧ EmitsInColor color (plotted (hollowOffsets r.toNat)) s t ∧
      t = { s with
              trace := t.trace
              cs := t.cs
              dc := t.dc
              bb := t.bb
              burstWork := t.burstWork
              pointWork := t.pointWork
              hollowWork := t.hollowWork
              pc := s.pc + 1
              busy := false }) ∧
    ∃ t, exec (.circf cx cy r color) s = .next t ∧ EmitsInColor color (plotted (filledOffsets r.toNat)) s t ∧
      t = { s with
              trace := t.trace
              cs := t.cs
              dc := t.dc
              bb := t.bb
              burstWork := t.burstWork
              pointWork := t.pointWork
              filledWork := t.filledWork
              pc := s.pc + 1
              busy := false }

/-- R160, R161, R164: for every radius the loops as the rules write them, without a bound on their steps, run to an end, and
their offsets in order are exactly the two lists; that the registers of R31 then hold the values of the end is the model's
reading (log 8). -/
def Obligations.CircleOffsetsAreTheLoopsOfTheRules : Prop :=
  (∀ r : Nat,
    (∃ fin, HollowLoop r ⟨r - 1, 0, 1, 1, 1 - 2 * r⟩ (hollowOffsets r) fin) ∧
    (∃ fin, FilledLoop ⟨r, 0, 1 - 2 * r, 0, 0⟩ (filledOffsets r) fin)) ∧
  (∀ (r : Nat) (offsets : List (Int × Int)) (fin : Hollow), HollowLoop r ⟨r - 1, 0, 1, 1, 1 - 2 * r⟩ offsets fin →
    offsets = hollowOffsets r ∧
    ∀ (cx cy color : U16) (s t : State), r < 65536 → exec (.circh cx cy (.ofNat 16 r) color) s = .next t →
      t.hollowWork = ⟨.ofInt 32 fin.x, .ofInt 32 fin.y, .ofInt 32 fin.dx, .ofInt 32 fin.dy, .ofInt 32 fin.err⟩) ∧
  (∀ (r : Nat) (offsets : List (Int × Int)) (fin : Filled), FilledLoop ⟨r, 0, 1 - 2 * r, 0, 0⟩ offsets fin →
    offsets = filledOffsets r ∧
    ∀ (cx cy color : U16) (s t : State), r < 65536 → exec (.circf cx cy (.ofNat 16 r) color) s = .next t →
      t.filledWork = ⟨.ofInt 32 fin.x, .ofInt 32 fin.y, .ofInt 32 fin.xChange, .ofInt 32 fin.yChange,
        .ofInt 32 fin.radiusError, t.filledWork.i⟩)

/-- R160, S4: for every radius the hollow circle's offsets are symmetric under the eight reflections and lie within `r + 1` of
the centre. -/
def Obligations.HollowCircleIsSymmetricAndBounded : Prop :=
  ∀ (r : Nat) (ox oy : Int), (ox, oy) ∈ hollowOffsets r →
    (-ox, oy) ∈ hollowOffsets r ∧ (ox, -oy) ∈ hollowOffsets r ∧ (oy, ox) ∈ hollowOffsets r ∧
    ox * ox + oy * oy ≤ ((r : Int) + 1) * ((r : Int) + 1)

/-- R161 (h): the same of the filled circle, for every radius. -/
def Obligations.FilledCircleIsSymmetricAndBounded : Prop :=
  ∀ (r : Nat) (ox oy : Int), (ox, oy) ∈ filledOffsets r →
    (-ox, oy) ∈ filledOffsets r ∧ (ox, -oy) ∈ filledOffsets r ∧ (oy, ox) ∈ filledOffsets r ∧
    ox * ox + oy * oy ≤ ((r : Int) + 1) * ((r : Int) + 1)

/-- R160 (e), R161 (d): the loops end by their own test after at most `r` and `r + 1` steps, so the model's step counts cut
nothing off; in a step of the hollow circle `x - y` falls by 1 or 2. -/
def Obligations.CircleLoopsEndByTheirOwnTest : Prop :=
  ∀ r : Nat,
    (hollowEnd r r (hollowStart r)).x < (hollowEnd r r (hollowStart r)).y ∧
    (hollowSteps r r (hollowStart r)).length ≤ r ∧
    (∀ fuel, r ≤ fuel → hollowSteps r fuel (hollowStart r) = hollowSteps r r (hollowStart r)) ∧
    (filledEnd (r + 1) (filledStart r)).x < (filledEnd (r + 1) (filledStart r)).y ∧
    (filledSteps (r + 1) (filledStart r)).length ≤ r + 1 ∧
    (∀ fuel, r + 1 ≤ fuel → filledSteps fuel (filledStart r) = filledSteps (r + 1) (filledStart r)) ∧
    ∀ (radius : Int) (h : Hollow),
      h.x - h.y - (hollowNext radius h).x + (hollowNext radius h).y = 1 ∨
      h.x - h.y - (hollowNext radius h).x + (hollowNext radius h).y = 2

/-- R160 (f), R161 (e), D7: for every 16-bit radius no working value of either circle reaches 2^19 in magnitude, at the start of
any step or after the loop, so none overflows its register. -/
def Obligations.CircleWorkingValuesNeverOverflow : Prop :=
  ∀ r : Nat, r ≤ 65535 →
    (∀ h, h ∈ hollowSteps r r (hollowStart r) ∨ h = hollowEnd r r (hollowStart r) →
      ∀ v ∈ [h.x, h.y, h.dx, h.dy, h.err], v.natAbs < 2 ^ 19) ∧
    ∀ f, f ∈ filledSteps (r + 1) (filledStart r) ∨ f = filledEnd (r + 1) (filledStart r) →
      ∀ v ∈ [f.x, f.y, f.xChange, f.yChange, f.radiusError, 2 * f.radiusError + f.xChange], v.natAbs < 2 ^ 19

/-- R162: for a centre on the panel and a radius of at most 65216, `Plot` draws exactly the circle points that lie on the panel,
at their exact coordinates. -/
def Obligations.NoAliasingForCentresOnThePanel : Prop :=
  ∀ (cfg : Config) (g : Geometry) (cx cy color : U16) (r : Nat) (o : Int × Int), g.Legal → cx < g.width → cy < g.height →
    r ≤ 65216 → (o ∈ hollowOffsets r ∨ o ∈ filledOffsets r) →
    let x : Int := cx.toNat + o.1
    let y : Int := cy.toNat + o.2
    (0 ≤ x ∧ x < g.width.toNat ∧ 0 ≤ y ∧ y < g.height.toNat →
      plotEvents cfg g cx cy o color =
        windowEvents cfg (.ofNat 16 x.toNat) (.ofNat 16 y.toNat) (.ofNat 16 x.toNat) (.ofNat 16 y.toNat) ++
          burstEvents cfg color 1) ∧
    (¬ (0 ≤ x ∧ x < g.width.toNat ∧ 0 ≤ y ∧ y < g.height.toNat) → plotEvents cfg g cx cy o color = [])

/-! ### The display, under the premises of R51 -/

/-- R51, R140, R141: PIXEL and RECTF show their colour on exactly their pixels and change no other pixel. -/
def Obligations.PixelAndRectfPaintTheirPixels : Prop :=
  ∀ (env : Environment) (s : State), env.ImageLaw s.cfg s.geom s.trace → env.Premises s.cfg → s.Inv →
    (∀ x y color : U16, x < s.geom.width → y < s.geom.height →
      ∃ t, exec (.pixel x y color) s = .next t ∧ Paints env (fun col row => col = x ∧ row = y) color s t) ∧
    ∀ x y w h color : U16, x < s.geom.width → y < s.geom.height →
      let wEff := min w.toNat (s.geom.width.toNat - x.toNat)
      let hEff := min h.toNat (s.geom.height.toNat - y.toNat)
      ∃ t, exec (.rectf x y w h color) s = .next t ∧
        Paints env (fun col row => x.toNat ≤ col.toNat ∧ col.toNat < x.toNat + wEff ∧
          y.toNat ≤ row.toNat ∧ row.toNat < y.toNat + hEff) color s t

/-- R144 (c) to (e), R51: RECTH with both corners on the panel and not equal shows its colour on exactly the outline between
them. -/
def Obligations.RecthPaintsTheOutline : Prop :=
  ∀ (env : Environment) (s : State) (x0 y0 x1 y1 color : U16),
    env.ImageLaw s.cfg s.geom s.trace → env.Premises s.cfg → s.Inv →
    x0 < s.geom.width → x1 < s.geom.width → y0 < s.geom.height → y1 < s.geom.height → (x0 ≠ x1 ∨ y0 ≠ y1) →
    let xa := min x0.toNat x1.toNat
    let xb := max x0.toNat x1.toNat
    let ya := min y0.toNat y1.toNat
    let yb := max y0.toNat y1.toNat
    ∃ t, exec (.recth x0 y0 x1 y1 color) s = .next t ∧
      Paints env (fun col row => xa ≤ col.toNat ∧ col.toNat ≤ xb ∧ ya ≤ row.toNat ∧ row.toNat ≤ yb ∧
        (col.toNat = xa ∨ col.toNat = xb ∨ row.toNat = ya ∨ row.toNat = yb)) color s t

/-- R163, R51: what a circle shows depends on its set of points only: the pixels on the panel that some offset reaches, modulo
65536, and no other. -/
def Obligations.CirclesPaintTheirPointSets : Prop :=
  ∀ (env : Environment) (s : State) (cx cy r color : U16),
    env.ImageLaw s.cfg s.geom s.trace → env.Premises s.cfg → s.Inv →
    let reached (offsets : List (Int × Int)) (col row : U16) : Prop :=
      col < s.geom.width ∧ row < s.geom.height ∧
        ∃ o ∈ offsets, col = .ofInt 16 (cx.toNat + o.1) ∧ row = .ofInt 16 (cy.toNat + o.2)
    (∃ t, exec (.circh cx cy r color) s = .next t ∧ Paints env (reached (hollowOffsets r.toNat)) color s t) ∧
    ∃ t, exec (.circf cx cy r color) s = .next t ∧ Paints env (reached (filledOffsets r.toNat)) color s t

/-- R51, R203, R204: SETWIN with ordered corners inside the panel and at once a BURST of exactly the window's pixel count, as two
words, fill the window with the colour and change no other pixel. -/
def Obligations.WindowThenBurstPaintsTheWindow : Prop :=
  ∀ (env : Environment) (s : State) (x1 y1 x2 y2 color : U16) (count : U32),
    env.ImageLaw s.cfg s.geom s.trace → env.Premises s.cfg → s.Inv →
    x1 ≤ x2 → x2 < s.geom.width → y1 ≤ y2 → y2 < s.geom.height →
    count.toNat = (x2.toNat - x1.toNat + 1) * (y2.toNat - y1.toNat + 1) →
    ∃ t, execAll [.setwin x1 y1 x2 y2, .burst color count] s = .next t ∧
      Paints env (inWindow x1 y1 x2 y2) color s t
end

