-- ==== Sys2Proof/Laws/Memory.lean ====
section
/-! SUPPORT. The laws of byte memory: a read after a write, the canonical form, the range of listed cells. -/

namespace Sys2Proof.Machine

theorem Memory.wf_iff {m : Memory} :
    m.wf = true ↔ (m.Pairwise fun p q => p.1 < q.1) ∧ ∀ p ∈ m, p.2 ≠ Memory.unlisted := by
  simp [Memory.wf]

theorem Memory.wf_nil : Memory.wf [] = true := by decide

theorem Memory.wf_cons {k : Nat} {u : Byte} {m : Memory} :
    Memory.wf ((k, u) :: m) = true ↔ u ≠ Memory.unlisted ∧ (∀ p ∈ m, k < p.1) ∧ m.wf = true := by
  rw [Memory.wf_iff, Memory.wf_iff, List.pairwise_cons]
  constructor
  · rintro ⟨⟨h1, h2⟩, h3⟩
    exact ⟨h3 _ (List.mem_cons_self ..), fun p hp => h1 p hp, h2, fun p hp => h3 p (List.mem_cons_of_mem _ hp)⟩
  · rintro ⟨h1, h2, h3, h4⟩
    refine ⟨⟨fun p hp => h2 p hp, h3⟩, fun p hp => ?_⟩
    rcases List.mem_cons.1 hp with rfl | hp
    exacts [h1, h4 p hp]

/-- An address that is not listed reads as `Memory.unlisted`. -/
theorem Memory.read_of_not_listed {m : Memory} {a : Nat} (h : ∀ p ∈ m, p.1 ≠ a) : m.read a = Memory.unlisted := by
  induction m with
  | nil => rfl
  | cons p m ih =>
    have h1 : a ≠ p.1 := fun e => h p (List.mem_cons_self ..) e.symm
    simpa [Memory.read, h1] using ih fun q hq => h q (List.mem_cons_of_mem _ hq)

/-- The listed cells after a write: the written one and cells listed before. -/
theorem Memory.mem_write {m : Memory} {a : Nat} {v : Byte} {p : Host.Cell} (h : p ∈ m.write a v) :
    (p = (a, v) ∧ v ≠ Memory.unlisted) ∨ p ∈ m := by
  induction m with
  | nil =>
    by_cases hv : v = Memory.unlisted <;> simp_all [Memory.write]
  | cons q m ih =>
    obtain ⟨k, u⟩ := q
    simp only [Memory.write] at h
    split at h
    · split at h
      · exact .inr h
      · rcases List.mem_cons.1 h with h | h
        · exact .inl ⟨h, ‹_›⟩
        · exact .inr h
    · split at h
      · split at h
        · exact .inr (List.mem_cons_of_mem _ h)
        · rcases List.mem_cons.1 h with h | h
          · exact .inl ⟨h, ‹_›⟩
          · exact .inr (List.mem_cons_of_mem _ h)
      · rcases List.mem_cons.1 h with h | h
        · exact .inr (h ▸ List.mem_cons_self ..)
        · exact (ih h).imp_right (List.mem_cons_of_mem _)

/-- A write keeps the canonical form. -/
theorem Memory.wf_write {m : Memory} (h : m.wf = true) (a : Nat) (v : Byte) : (m.write a v).wf = true := by
  induction m with
  | nil =>
    by_cases hv : v = Memory.unlisted
    · simp [Memory.write, hv, Memory.wf_nil]
    · simpa [Memory.write, hv] using Memory.wf_cons.2 ⟨hv, by simp, Memory.wf_nil⟩
  | cons q m ih =>
    obtain ⟨k, u⟩ := q
    obtain ⟨hu, hk, hm⟩ := Memory.wf_cons.1 h
    simp only [Memory.write]
    split
    · split
      · exact h
      · refine Memory.wf_cons.2 ⟨‹_›, fun p hp => ?_, h⟩
        rcases List.mem_cons.1 hp with rfl | hp
        · assumption
        · exact lt_trans ‹_› (hk p hp)
    · split
      · split
        · exact hm
        · subst a
          exact Memory.wf_cons.2 ⟨‹_›, hk, hm⟩
      · refine Memory.wf_cons.2 ⟨hu, fun p hp => ?_, ih hm⟩
        rcases Memory.mem_write hp with ⟨rfl, _⟩ | hp
        · show k < a
          omega
        · exact hk p hp

/-- A read after a write: the byte written at its address, every other byte as before. -/
theorem Memory.read_write {m : Memory} (h : m.wf = true) (a : Nat) (v : Byte) (b : Nat) :
    (m.write a v).read b = if b = a then v else m.read b := by
  induction m with
  | nil => by_cases hv : v = Memory.unlisted <;> by_cases hb : b = a <;> simp [Memory.write, Memory.read, hv, hb]
  | cons q m ih =>
    obtain ⟨k, u⟩ := q
    obtain ⟨-, hk, hm⟩ := Memory.wf_cons.1 h
    have hlow : ∀ c, c ≤ k → Memory.read m c = Memory.unlisted := fun c hc =>
      Memory.read_of_not_listed fun p hp => by have := hk p hp; omega
    simp only [Memory.write]
    split
    · split
      · by_cases hb : b = a
        · have hb' : b ≠ k := by omega
          simp [Memory.read, *, hlow a (by omega), show a ≠ k by omega]
        · simp [hb]
      · by_cases hb : b = a <;> simp [Memory.read, hb]
    · split
      · subst a
        split
        · by_cases hb : b = k
          · simp [hlow k le_rfl, *]
          · simp [Memory.read, hb]
        · by_cases hb : b = k <;> simp [Memory.read, hb]
      · have := ih hm
        by_cases hb : b = k
        · have : k ≠ a := by omega
          simp [Memory.read, hb, this]
        · simp [Memory.read, hb, this]

/-- Writes within a bound keep every listed address below it. -/
theorem Memory.write_below {m : Memory} {bound a : Nat} (h : ∀ p ∈ m, p.1 < bound) (ha : a < bound) (v : Byte) :
    ∀ p ∈ m.write a v, p.1 < bound := by
  intro p hp
  rcases Memory.mem_write hp with ⟨rfl, _⟩ | hp
  exacts [ha, h p hp]

@[simp] theorem Memory.length_readBytes (m : Memory) (a n : Nat) : (m.readBytes a n).length = n := by
  simp [Memory.readBytes]

end Sys2Proof.Machine
end

