-- ==== Sys2Proof/Laws/State.lean ====
section
/-! SUPPORT. What every update of the state does to every field. -/

namespace Sys2Proof.Machine

section setCs
variable (v : ChipSelect) (s : State)
@[simp] theorem State.setCs_geom : (s.setCs v).geom = s.geom := rfl
@[simp] theorem State.setCs_cs : (s.setCs v).cs = v := rfl
@[simp] theorem State.setCs_dc : (s.setCs v).dc = s.dc := rfl
@[simp] theorem State.setCs_trace : (s.setCs v).trace = s.trace := rfl
@[simp] theorem State.setCs_latches : (s.setCs v).latches = s.latches := rfl
@[simp] theorem State.setCs_bb : (s.setCs v).bb = s.bb := rfl
@[simp] theorem State.setCs_burstWork : (s.setCs v).burstWork = s.burstWork := rfl
@[simp] theorem State.setCs_clampWork : (s.setCs v).clampWork = s.clampWork := rfl
@[simp] theorem State.setCs_cornerWork : (s.setCs v).cornerWork = s.cornerWork := rfl
@[simp] theorem State.setCs_pointWork : (s.setCs v).pointWork = s.pointWork := rfl
@[simp] theorem State.setCs_hollowWork : (s.setCs v).hollowWork = s.hollowWork := rfl
@[simp] theorem State.setCs_filledWork : (s.setCs v).filledWork = s.filledWork := rfl
@[simp] theorem State.setCs_pc : (s.setCs v).pc = s.pc := rfl
@[simp] theorem State.setCs_busy : (s.setCs v).busy = s.busy := rfl
@[simp] theorem State.setCs_program : (s.setCs v).program = s.program := rfl
@[simp] theorem State.setCs_resetIn : (s.setCs v).resetIn = s.resetIn := rfl
@[simp] theorem State.setCs_cfg : (s.setCs v).cfg = s.cfg := rfl
end setCs

section setDc
variable (v : DataCommand) (s : State)
@[simp] theorem State.setDc_geom : (s.setDc v).geom = s.geom := rfl
@[simp] theorem State.setDc_cs : (s.setDc v).cs = s.cs := rfl
@[simp] theorem State.setDc_dc : (s.setDc v).dc = v := rfl
@[simp] theorem State.setDc_trace : (s.setDc v).trace = s.trace := rfl
@[simp] theorem State.setDc_latches : (s.setDc v).latches = s.latches := rfl
@[simp] theorem State.setDc_bb : (s.setDc v).bb = s.bb := rfl
@[simp] theorem State.setDc_burstWork : (s.setDc v).burstWork = s.burstWork := rfl
@[simp] theorem State.setDc_clampWork : (s.setDc v).clampWork = s.clampWork := rfl
@[simp] theorem State.setDc_cornerWork : (s.setDc v).cornerWork = s.cornerWork := rfl
@[simp] theorem State.setDc_pointWork : (s.setDc v).pointWork = s.pointWork := rfl
@[simp] theorem State.setDc_hollowWork : (s.setDc v).hollowWork = s.hollowWork := rfl
@[simp] theorem State.setDc_filledWork : (s.setDc v).filledWork = s.filledWork := rfl
@[simp] theorem State.setDc_pc : (s.setDc v).pc = s.pc := rfl
@[simp] theorem State.setDc_busy : (s.setDc v).busy = s.busy := rfl
@[simp] theorem State.setDc_program : (s.setDc v).program = s.program := rfl
@[simp] theorem State.setDc_resetIn : (s.setDc v).resetIn = s.resetIn := rfl
@[simp] theorem State.setDc_cfg : (s.setDc v).cfg = s.cfg := rfl
end setDc

section setBusy
variable (v : Bool) (s : State)
@[simp] theorem State.setBusy_geom : (s.setBusy v).geom = s.geom := rfl
@[simp] theorem State.setBusy_cs : (s.setBusy v).cs = s.cs := rfl
@[simp] theorem State.setBusy_dc : (s.setBusy v).dc = s.dc := rfl
@[simp] theorem State.setBusy_trace : (s.setBusy v).trace = s.trace := rfl
@[simp] theorem State.setBusy_latches : (s.setBusy v).latches = s.latches := rfl
@[simp] theorem State.setBusy_bb : (s.setBusy v).bb = s.bb := rfl
@[simp] theorem State.setBusy_burstWork : (s.setBusy v).burstWork = s.burstWork := rfl
@[simp] theorem State.setBusy_clampWork : (s.setBusy v).clampWork = s.clampWork := rfl
@[simp] theorem State.setBusy_cornerWork : (s.setBusy v).cornerWork = s.cornerWork := rfl
@[simp] theorem State.setBusy_pointWork : (s.setBusy v).pointWork = s.pointWork := rfl
@[simp] theorem State.setBusy_hollowWork : (s.setBusy v).hollowWork = s.hollowWork := rfl
@[simp] theorem State.setBusy_filledWork : (s.setBusy v).filledWork = s.filledWork := rfl
@[simp] theorem State.setBusy_pc : (s.setBusy v).pc = s.pc := rfl
@[simp] theorem State.setBusy_busy : (s.setBusy v).busy = v := rfl
@[simp] theorem State.setBusy_program : (s.setBusy v).program = s.program := rfl
@[simp] theorem State.setBusy_resetIn : (s.setBusy v).resetIn = s.resetIn := rfl
@[simp] theorem State.setBusy_cfg : (s.setBusy v).cfg = s.cfg := rfl
end setBusy

section emit
variable (e : Event) (s : State)
@[simp] theorem State.emit_geom : (s.emit e).geom = s.geom := rfl
@[simp] theorem State.emit_cs : (s.emit e).cs = s.cs := rfl
@[simp] theorem State.emit_dc : (s.emit e).dc = s.dc := rfl
@[simp] theorem State.emit_trace : (s.emit e).trace = s.trace ++ [e] := rfl
@[simp] theorem State.emit_latches : (s.emit e).latches = s.latches := rfl
@[simp] theorem State.emit_bb : (s.emit e).bb = s.bb := rfl
@[simp] theorem State.emit_burstWork : (s.emit e).burstWork = s.burstWork := rfl
@[simp] theorem State.emit_clampWork : (s.emit e).clampWork = s.clampWork := rfl
@[simp] theorem State.emit_cornerWork : (s.emit e).cornerWork = s.cornerWork := rfl
@[simp] theorem State.emit_pointWork : (s.emit e).pointWork = s.pointWork := rfl
@[simp] theorem State.emit_hollowWork : (s.emit e).hollowWork = s.hollowWork := rfl
@[simp] theorem State.emit_filledWork : (s.emit e).filledWork = s.filledWork := rfl
@[simp] theorem State.emit_pc : (s.emit e).pc = s.pc := rfl
@[simp] theorem State.emit_busy : (s.emit e).busy = s.busy := rfl
@[simp] theorem State.emit_program : (s.emit e).program = s.program := rfl
@[simp] theorem State.emit_resetIn : (s.emit e).resetIn = s.resetIn := rfl
@[simp] theorem State.emit_cfg : (s.emit e).cfg = s.cfg := rfl
end emit

section writeBuffer
variable (i : Nat) (v : Byte) (s : State)
@[simp] theorem State.writeBuffer_geom : (s.writeBuffer i v).geom = s.geom := rfl
@[simp] theorem State.writeBuffer_cs : (s.writeBuffer i v).cs = s.cs := rfl
@[simp] theorem State.writeBuffer_dc : (s.writeBuffer i v).dc = s.dc := rfl
@[simp] theorem State.writeBuffer_trace : (s.writeBuffer i v).trace = s.trace := rfl
@[simp] theorem State.writeBuffer_latches : (s.writeBuffer i v).latches = s.latches := rfl
@[simp] theorem State.writeBuffer_bb : (s.writeBuffer i v).bb = s.bb.write i v := rfl
@[simp] theorem State.writeBuffer_burstWork : (s.writeBuffer i v).burstWork = s.burstWork := rfl
@[simp] theorem State.writeBuffer_clampWork : (s.writeBuffer i v).clampWork = s.clampWork := rfl
@[simp] theorem State.writeBuffer_cornerWork : (s.writeBuffer i v).cornerWork = s.cornerWork := rfl
@[simp] theorem State.writeBuffer_pointWork : (s.writeBuffer i v).pointWork = s.pointWork := rfl
@[simp] theorem State.writeBuffer_hollowWork : (s.writeBuffer i v).hollowWork = s.hollowWork := rfl
@[simp] theorem State.writeBuffer_filledWork : (s.writeBuffer i v).filledWork = s.filledWork := rfl
@[simp] theorem State.writeBuffer_pc : (s.writeBuffer i v).pc = s.pc := rfl
@[simp] theorem State.writeBuffer_busy : (s.writeBuffer i v).busy = s.busy := rfl
@[simp] theorem State.writeBuffer_program : (s.writeBuffer i v).program = s.program := rfl
@[simp] theorem State.writeBuffer_resetIn : (s.writeBuffer i v).resetIn = s.resetIn := rfl
@[simp] theorem State.writeBuffer_cfg : (s.writeBuffer i v).cfg = s.cfg := rfl
end writeBuffer

section accept
variable (w : CommandWord) (s : State)
@[simp] theorem State.accept_geom : (s.accept w).geom = s.geom := rfl
@[simp] theorem State.accept_cs : (s.accept w).cs = s.cs := rfl
@[simp] theorem State.accept_dc : (s.accept w).dc = s.dc := rfl
@[simp] theorem State.accept_trace : (s.accept w).trace = s.trace := rfl
@[simp] theorem State.accept_latches : (s.accept w).latches = ⟨w.op, w.a, w.b, w.c, w.d, w.e⟩ := rfl
@[simp] theorem State.accept_bb : (s.accept w).bb = s.bb := rfl
@[simp] theorem State.accept_burstWork : (s.accept w).burstWork = s.burstWork := rfl
@[simp] theorem State.accept_clampWork : (s.accept w).clampWork = s.clampWork := rfl
@[simp] theorem State.accept_cornerWork : (s.accept w).cornerWork = s.cornerWork := rfl
@[simp] theorem State.accept_pointWork : (s.accept w).pointWork = s.pointWork := rfl
@[simp] theorem State.accept_hollowWork : (s.accept w).hollowWork = s.hollowWork := rfl
@[simp] theorem State.accept_filledWork : (s.accept w).filledWork = s.filledWork := rfl
@[simp] theorem State.accept_pc : (s.accept w).pc = s.pc := rfl
@[simp] theorem State.accept_busy : (s.accept w).busy = true := rfl
@[simp] theorem State.accept_program : (s.accept w).program = s.program := rfl
@[simp] theorem State.accept_resetIn : (s.accept w).resetIn = s.resetIn := rfl
@[simp] theorem State.accept_cfg : (s.accept w).cfg = s.cfg := rfl
end accept

section complete
variable (s : State)
@[simp] theorem State.complete_geom : s.complete.geom = s.geom := rfl
@[simp] theorem State.complete_cs : s.complete.cs = s.cs := rfl
@[simp] theorem State.complete_dc : s.complete.dc = s.dc := rfl
@[simp] theorem State.complete_trace : s.complete.trace = s.trace := rfl
@[simp] theorem State.complete_latches : s.complete.latches = s.latches := rfl
@[simp] theorem State.complete_bb : s.complete.bb = s.bb := rfl
@[simp] theorem State.complete_burstWork : s.complete.burstWork = s.burstWork := rfl
@[simp] theorem State.complete_clampWork : s.complete.clampWork = s.clampWork := rfl
@[simp] theorem State.complete_cornerWork : s.complete.cornerWork = s.cornerWork := rfl
@[simp] theorem State.complete_pointWork : s.complete.pointWork = s.pointWork := rfl
@[simp] theorem State.complete_hollowWork : s.complete.hollowWork = s.hollowWork := rfl
@[simp] theorem State.complete_filledWork : s.complete.filledWork = s.filledWork := rfl
@[simp] theorem State.complete_pc : s.complete.pc = s.pc + 1 := rfl
@[simp] theorem State.complete_busy : s.complete.busy = false := rfl
@[simp] theorem State.complete_program : s.complete.program = s.program := rfl
@[simp] theorem State.complete_resetIn : s.complete.resetIn = s.resetIn := rfl
@[simp] theorem State.complete_cfg : s.complete.cfg = s.cfg := rfl
end complete

section skipIllegal
variable (s : State)
@[simp] theorem State.skipIllegal_geom : s.skipIllegal.geom = s.geom := rfl
@[simp] theorem State.skipIllegal_cs : s.skipIllegal.cs = s.cs := rfl
@[simp] theorem State.skipIllegal_dc : s.skipIllegal.dc = s.dc := rfl
@[simp] theorem State.skipIllegal_trace : s.skipIllegal.trace = s.trace := rfl
@[simp] theorem State.skipIllegal_latches : s.skipIllegal.latches = s.latches := rfl
@[simp] theorem State.skipIllegal_bb : s.skipIllegal.bb = s.bb := rfl
@[simp] theorem State.skipIllegal_burstWork : s.skipIllegal.burstWork = s.burstWork := rfl
@[simp] theorem State.skipIllegal_clampWork : s.skipIllegal.clampWork = s.clampWork := rfl
@[simp] theorem State.skipIllegal_cornerWork : s.skipIllegal.cornerWork = s.cornerWork := rfl
@[simp] theorem State.skipIllegal_pointWork : s.skipIllegal.pointWork = s.pointWork := rfl
@[simp] theorem State.skipIllegal_hollowWork : s.skipIllegal.hollowWork = s.hollowWork := rfl
@[simp] theorem State.skipIllegal_filledWork : s.skipIllegal.filledWork = s.filledWork := rfl
@[simp] theorem State.skipIllegal_pc : s.skipIllegal.pc = s.pc + 1 := rfl
@[simp] theorem State.skipIllegal_busy : s.skipIllegal.busy = s.busy := rfl
@[simp] theorem State.skipIllegal_program : s.skipIllegal.program = s.program := rfl
@[simp] theorem State.skipIllegal_resetIn : s.skipIllegal.resetIn = s.resetIn := rfl
@[simp] theorem State.skipIllegal_cfg : s.skipIllegal.cfg = s.cfg := rfl
end skipIllegal

end Sys2Proof.Machine
end

