-- ==== Sys2Proof/Laws/Trace.lean ====
section
/-! SUPPORT. The views of a trace over concatenation and over the wire layouts. -/

namespace Sys2Proof.Machine

theorem byteCount_append (a b : List Event) : byteCount (a ++ b) = byteCount a + byteCount b := by
  induction a with
  | nil => simp [byteCount]
  | cons e a ih => cases e <;> simp [byteCount, ih, Nat.add_assoc]

theorem sendCount_append (a b : List Event) : sendCount (a ++ b) = sendCount a + sendCount b := by
  induction a with
  | nil => simp [sendCount]
  | cons e a ih => cases e <;> simp [sendCount, ih, Nat.add_right_comm]

theorem longestSend_append (a b : List Event) : longestSend (a ++ b) = max (longestSend a) (longestSend b) := by
  induction a with
  | nil => simp [longestSend]
  | cons e a ih => cases e <;> simp [longestSend, ih, max_assoc]

theorem sentBytes_append (a b : List Event) : sentBytes (a ++ b) = sentBytes a ++ sentBytes b := by
  induction a with
  | nil => simp [sentBytes]
  | cons e a ih => cases e <;> simp [sentBytes, ih]

theorem modeAfter_append (m : DataCommand) (a b : List Event) : modeAfter m (a ++ b) = modeAfter (modeAfter m a) b := by
  induction a generalizing m with
  | nil => simp [modeAfter]
  | cons e a ih => cases e <;> simp [modeAfter, ih]

theorem wireView_append (m : DataCommand) (a b : List Event) :
    wireView m (a ++ b) = wireView m a ++ wireView (modeAfter m a) b := by
  induction a generalizing m with
  | nil => simp [wireView, modeAfter]
  | cons e a ih => cases e <;> simp [wireView, modeAfter, ih]

theorem FramePhase.afterAll_append (p : FramePhase) (a b : List Event) :
    p.afterAll (a ++ b) = (p.afterAll a).bind fun q => q.afterAll b := by
  induction a generalizing p with
  | nil => simp [FramePhase.afterAll]
  | cons e a ih =>
    simp only [List.cons_append, FramePhase.afterAll]
    cases p.after e <;> simp [ih]

theorem Framed.nil : Framed [] := rfl

/-- Whole frames after whole frames are whole frames. -/
theorem Framed.append {a b : List Event} (ha : Framed a) (hb : Framed b) : Framed (a ++ b) := by
  rw [Framed, FramePhase.afterAll_append, ha]
  exact hb

/-- What follows whole frames is framed if the whole is. -/
theorem Framed.of_append {a b : List Event} (ha : Framed a) (h : Framed (a ++ b)) : Framed b := by
  rwa [Framed, FramePhase.afterAll_append, ha] at h

theorem Framed.flatMap {α : Type} {l : List α} {f : α → List Event} (h : ∀ a ∈ l, Framed (f a)) :
    Framed (l.flatMap f) := by
  induction l with
  | nil => exact Framed.nil
  | cons a l ih =>
    rw [List.flatMap_cons]
    exact (h a (List.mem_cons_self ..)).append (ih fun b hb => h b (List.mem_cons_of_mem _ hb))

/-! ### The wire layouts -/

theorem framed_commandFrame (b : Byte) : Framed (commandFrame b) := rfl
theorem framed_parameterFrame (b : Byte) : Framed (parameterFrame b) := rfl
theorem framed_windowEvents (cfg : Config) (x1 y1 x2 y2 : U16) : Framed (windowEvents cfg x1 y1 x2 y2) := rfl

@[simp] theorem windowEvents_ne_nil (cfg : Config) (x1 y1 x2 y2 : U16) : windowEvents cfg x1 y1 x2 y2 ≠ [] := by
  simp [windowEvents, commandFrame]

theorem length_windowEvents (cfg : Config) (x1 y1 x2 y2 : U16) : (windowEvents cfg x1 y1 x2 y2).length = 44 := rfl
theorem byteCount_windowEvents (cfg : Config) (x1 y1 x2 y2 : U16) : byteCount (windowEvents cfg x1 y1 x2 y2) = 11 := rfl
theorem sendCount_windowEvents (cfg : Config) (x1 y1 x2 y2 : U16) : sendCount (windowEvents cfg x1 y1 x2 y2) = 11 := rfl
theorem longestSend_windowEvents (cfg : Config) (x1 y1 x2 y2 : U16) :
    longestSend (windowEvents cfg x1 y1 x2 y2) = 1 := rfl
theorem modeAfter_windowEvents (cfg : Config) (m : DataCommand) (x1 y1 x2 y2 : U16) :
    modeAfter m (windowEvents cfg x1 y1 x2 y2) = .command := rfl

@[simp] theorem length_pattern (color : U16) (n : Nat) : (pattern color n).length = n := by simp [pattern]

/-- The sends of a burst: `n` equal blocks. -/
theorem sentBytes_replicate (n : Nat) (bytes : List Byte) :
    sentBytes (List.replicate n (.send bytes)) = (List.replicate n bytes).flatten := by
  induction n with
  | zero => rfl
  | succ n ih => simp [List.replicate_succ, sentBytes, ih]

theorem byteCount_replicate (n : Nat) (bytes : List Byte) :
    byteCount (List.replicate n (.send bytes)) = n * bytes.length := by
  induction n with
  | zero => simp [byteCount]
  | succ n ih => simp [List.replicate_succ, byteCount, ih, Nat.succ_mul, Nat.add_comm]

theorem sendCount_replicate (n : Nat) (bytes : List Byte) : sendCount (List.replicate n (.send bytes)) = n := by
  induction n with
  | zero => rfl
  | succ n ih => simp [List.replicate_succ, sendCount, ih]

theorem longestSend_replicate {n : Nat} (hn : 0 < n) (bytes : List Byte) :
    longestSend (List.replicate n (.send bytes)) = bytes.length := by
  induction n with
  | zero => omega
  | succ n ih =>
    rcases Nat.eq_zero_or_pos n with rfl | h
    · simp [longestSend]
    · simp [List.replicate_succ, longestSend, ih h]

theorem modeAfter_replicate (m : DataCommand) (n : Nat) (bytes : List Byte) :
    modeAfter m (List.replicate n (.send bytes)) = m := by
  induction n with
  | zero => rfl
  | succ n ih => simp [List.replicate_succ, modeAfter, ih]

theorem wireView_replicate (m : DataCommand) (n : Nat) (bytes : List Byte) :
    wireView m (List.replicate n (.send bytes)) = (List.replicate n (bytes.map fun b => (m, b))).flatten := by
  induction n with
  | zero => rfl
  | succ n ih => simp [List.replicate_succ, wireView, ih]

theorem FramePhase.afterAll_sends {n : Nat} {bytes : List Byte} (h : bytes ≠ []) :
    FramePhase.sending.afterAll (List.replicate n (.send bytes)) = some .sending := by
  obtain ⟨b, bs, rfl⟩ := List.exists_cons_of_ne_nil h
  induction n with
  | zero => rfl
  | succ n ih => simpa [List.replicate_succ, FramePhase.afterAll, FramePhase.after] using ih

/-! ### The burst frame -/

/-- The facts of R131 about the arithmetic of a burst with `count > 0`. -/
theorem burstArithmetic_facts {cap count : Nat} (hcap : 2 ≤ cap) (hc : 0 < count) :
    let k := burstArithmetic cap count
    2 ≤ k.bufferSize ∧ k.bufferSize ≤ cap ∧ k.remainder < k.bufferSize ∧ 1 ≤ k.fullBlocks ∧
      k.fullBlocks * k.bufferSize + k.remainder = 2 * count := by
  have hb : 2 ≤ min (2 * count) cap := by omega
  refine ⟨hb, by simp [burstArithmetic], ?_, ?_, ?_⟩
  · exact Nat.mod_lt _ (by show 0 < min (2 * count) cap; omega)
  · exact (Nat.one_le_div_iff (by omega)).2 (Nat.min_le_left ..)
  · exact Nat.div_add_mod' ..

/-- With an even capacity every send of a burst has an even length (R54, R131 (e)). -/
theorem burstArithmetic_even {cap count : Nat} (hcap : cap % 2 = 0) :
    let k := burstArithmetic cap count
    k.bufferSize % 2 = 0 ∧ k.remainder % 2 = 0 := by
  have hb : min (2 * count) cap % 2 = 0 := by omega
  refine ⟨hb, ?_⟩
  show 2 * count % min (2 * count) cap % 2 = 0
  rw [Nat.mod_mod_of_dvd _ (Nat.dvd_of_mod_eq_zero hb)]
  omega

theorem burstEvents_zero (cfg : Config) (color : U16) : burstEvents cfg color 0 = [] := rfl

theorem burstEvents_ne_nil {cfg : Config} {color : U16} {n : Nat} (h : 0 < n) : burstEvents cfg color n ≠ [] := by
  simp [burstEvents, Nat.pos_iff_ne_zero.1 h]

/-- The burst of one pixel (R140, R131 (d)). -/
theorem burstEvents_one {cfg : Config} (hcap : 2 ≤ cfg.burstCap) (color : U16) :
    burstEvents cfg color 1 = [.sel, .modeData, .send [hi8 color, lo8 color], .desel] := by
  have h : min 2 cfg.burstCap = 2 := by omega
  simp [burstEvents, burstArithmetic, h, pattern, patternByte, List.range_succ]

theorem framed_burstEvents {cfg : Config} (hcap : 2 ≤ cfg.burstCap) (color : U16) (n : Nat) :
    Framed (burstEvents cfg color n) := by
  rcases Nat.eq_zero_or_pos n with rfl | hn
  · exact Framed.nil
  · obtain ⟨h1, -, -, h4, -⟩ := burstArithmetic_facts hcap hn
    have hp : ∀ k, 0 < k → pattern color k ≠ [] := fun k hk e => by
      have := congrArg List.length e
      simp at this
      omega
    simp only [burstEvents, Nat.pos_iff_ne_zero.1 hn, if_false, Framed]
    generalize burstArithmetic cfg.burstCap n = k at *
    obtain ⟨m, hm⟩ : ∃ m, k.fullBlocks = m + 1 := ⟨k.fullBlocks - 1, by omega⟩
    obtain ⟨b, bs, hb⟩ := List.exists_cons_of_ne_nil (hp k.bufferSize (by omega))
    rw [hm, List.replicate_succ, hb]
    simp only [FramePhase.afterAll_append]
    simp only [FramePhase.afterAll, FramePhase.after, Option.bind_some]
    rw [FramePhase.afterAll_sends (by simp)]
    split
    · obtain ⟨b', bs', hb'⟩ := List.exists_cons_of_ne_nil (hp k.remainder ‹_›)
      simp [hb', FramePhase.afterAll, FramePhase.after]
    · rfl

/-- The longest send of a burst is its buffer size. -/
theorem longestSend_burstEvents {cfg : Config} (hcap : 2 ≤ cfg.burstCap) (color : U16) {n : Nat} (hn : 0 < n) :
    longestSend (burstEvents cfg color n) = (burstArithmetic cfg.burstCap n).bufferSize := by
  obtain ⟨-, -, h3, h4, -⟩ := burstArithmetic_facts hcap hn
  simp only [burstEvents, Nat.pos_iff_ne_zero.1 hn, if_false]
  generalize burstArithmetic cfg.burstCap n = k at *
  rw [longestSend_append, longestSend_append, longestSend_append, longestSend_replicate (by omega)]
  split <;> simp [longestSend]
  omega

theorem modeAfter_burstEvents (cfg : Config) (m : DataCommand) (color : U16) {n : Nat} (hn : 0 < n) :
    modeAfter m (burstEvents cfg color n) = .data := by
  simp only [burstEvents, Nat.pos_iff_ne_zero.1 hn, if_false]
  rw [modeAfter_append, modeAfter_append, modeAfter_append, modeAfter_replicate]
  split <;> simp [modeAfter]

/-- "total bytes transmitted ... equals `count*2` exactly" (R131 (a)). -/
theorem byteCount_burstEvents {cfg : Config} (hcap : 2 ≤ cfg.burstCap) (color : U16) (n : Nat) :
    byteCount (burstEvents cfg color n) = 2 * n := by
  rcases Nat.eq_zero_or_pos n with rfl | hn
  · rfl
  · obtain ⟨-, -, -, -, h5⟩ := burstArithmetic_facts hcap hn
    simp only [burstEvents, Nat.pos_iff_ne_zero.1 hn, if_false]
    generalize burstArithmetic cfg.burstCap n = k at *
    rw [byteCount_append, byteCount_append, byteCount_append, byteCount_replicate]
    split <;> simp [byteCount] <;> omega

/-- An even length of the colour stream is whole pixels, high byte first (R89). -/
theorem pattern_two_mul (color : U16) (n : Nat) :
    pattern color (2 * n) = (List.replicate n [hi8 color, lo8 color]).flatten := by
  induction n with
  | zero => rfl
  | succ n ih =>
    rw [List.replicate_succ', List.flatten_append, ← ih]
    simp [pattern, Nat.mul_succ, List.range_succ, patternByte, show (2 * n + 1) % 2 = 1 by omega]

theorem flatten_replicate_flatten {α : Type} (m n : Nat) (l : List α) :
    (List.replicate m (List.replicate n l).flatten).flatten = (List.replicate (m * n) l).flatten := by
  induction m with
  | zero => simp
  | succ m ih =>
    rw [List.replicate_succ, List.flatten_cons, ih, Nat.succ_mul, Nat.add_comm, List.replicate_add, List.flatten_append]

/-- The events of a burst, `count > 0` (R130). -/
theorem length_burstEvents {cfg : Config} {color : U16} {n : Nat} (hn : 0 < n) :
    (burstEvents cfg color n).length =
      3 + (burstArithmetic cfg.burstCap n).fullBlocks +
        (if 0 < (burstArithmetic cfg.burstCap n).remainder then 1 else 0) := by
  simp only [burstEvents, Nat.pos_iff_ne_zero.1 hn, if_false]
  generalize burstArithmetic cfg.burstCap n = k
  split <;> simp <;> omega

end Sys2Proof.Machine
end

