-- ==== Sys2Proof/Laws/Burst.lean ====
section
/-! SUPPORT. Everything a burst does, as one state. -/

namespace Sys2Proof.Machine

/-- The fill writes the buffer and nothing else. -/
theorem fillBuffer_eq (color : U16) (n : Nat) (s : State) :
    fillBuffer color n s = { s with bb := (fillBuffer color n s).bb } := by
  induction n with
  | zero => rfl
  | succ n ih => rw [fillBuffer, ih]; rfl

/-- What the fill leaves in the buffer depends on the buffer alone. -/
theorem fillBuffer_congr (color : U16) (n : Nat) {s t : State} (h : t.bb = s.bb) :
    (fillBuffer color n t).bb = (fillBuffer color n s).bb := by
  induction n with
  | zero => exact h
  | succ n ih => simp [fillBuffer, ih]

/-- The fill keeps the canonical form and puts the colour pattern in the first `n` bytes (R130). -/
theorem fillBuffer_bb (color : U16) (n : Nat) {s : State} (h : s.bb.wf = true) :
    (fillBuffer color n s).bb.wf = true ∧
      ∀ a, (fillBuffer color n s).bb.read a = if a < n then patternByte color a else s.bb.read a := by
  induction n with
  | zero => exact ⟨h, fun a => by simp [fillBuffer]⟩
  | succ n ih =>
    refine ⟨Memory.wf_write ih.1 _ _, fun a => ?_⟩
    simp only [fillBuffer, State.writeBuffer_bb, Memory.read_write ih.1, ih.2]
    by_cases h1 : a = n
    · simp [h1]
    · simp [h1, show a < n + 1 ↔ a < n by omega]

/-- The fill stays below any bound on its length. -/
theorem fillBuffer_below (color : U16) {n bound : Nat} (hn : n ≤ bound) {s : State} (h : ∀ p ∈ s.bb, p.1 < bound) :
    ∀ p ∈ (fillBuffer color n s).bb, p.1 < bound := by
  induction n with
  | zero => exact h
  | succ n ih => exact Memory.write_below (ih (by omega)) (by omega) _

/-- A read of the filled part of the buffer is the pattern. -/
theorem readBuffer_pattern {color : U16} {s : State} {n m : Nat} (hm : m ≤ n)
    (h : ∀ a, a < n → s.bb.read a = patternByte color a) : s.readBuffer m = pattern color m := by
  simp only [State.readBuffer, Memory.readBytes, pattern]
  refine List.map_congr_left fun a ha => ?_
  rw [Nat.zero_add]
  exact h a (by have := List.mem_range.1 ha; omega)

theorem sendBlocks_eq (size n : Nat) (s : State) :
    sendBlocks size n s =
      { s with trace := s.trace ++ List.replicate n (.send (s.readBuffer size)),
               burstWork := { s.burstWork with block := s.burstWork.block + n } } := by
  induction n generalizing s with
  | zero => simp [sendBlocks]
  | succ n ih =>
    rw [sendBlocks, ih]
    simp [countBlock, State.send, State.emit, State.readBuffer, List.replicate_succ, Nat.add_assoc, Nat.add_comm 1 n]

/-- R133. -/
theorem burst_zero (color : U16) (s : State) : burst color 0 s = s := rfl

/-- Everything a burst with `count > 0` does (R130). -/
theorem burst_eq {color : U16} {count : U32} (hc : count ≠ 0) {s : State} (hcap : 2 ≤ s.cfg.burstCap)
    (hm : s.bb.wf = true) :
    let k := burstArithmetic s.cfg.burstCap count.toNat
    burst color count s =
      { s with trace := s.trace ++ burstEvents s.cfg color count.toNat, cs := .deasserted, dc := .data,
               bb := (fillBuffer color k.bufferSize s).bb, burstWork := { k with block := k.fullBlocks } } := by
  have hpos : 0 < count.toNat := by
    rw [Nat.pos_iff_ne_zero]
    exact fun e => hc (BitVec.eq_of_toNat_eq (by simpa using e))
  obtain ⟨-, -, h3, -, -⟩ := burstArithmetic_facts hcap hpos
  intro k
  change k.remainder < k.bufferSize at h3
  have hk : k.block = 0 := rfl
  have hbb : (fillBuffer color k.bufferSize { s with burstWork := k }).bb = (fillBuffer color k.bufferSize s).bb :=
    fillBuffer_congr color _ rfl
  have hread := (fillBuffer_bb color k.bufferSize (s := s) hm).2
  rw [burst, if_neg hc]
  show (sendRemainder k.remainder (sendBlocks k.bufferSize k.fullBlocks
    (fillBuffer color k.bufferSize { s with burstWork := k }).select.dataMode)).deselect = _
  rw [fillBuffer_eq, hbb, sendBlocks_eq]
  have hp : ∀ m, m ≤ k.bufferSize → ∀ t : State, t.bb = (fillBuffer color k.bufferSize s).bb →
      t.readBuffer m = pattern color m := fun m hm' t ht =>
    readBuffer_pattern hm' fun a ha => by rw [ht, hread, if_pos ha]
  rw [hp k.bufferSize le_rfl _ (by simp [State.select, State.dataMode])]
  simp only [sendRemainder, burstEvents, Nat.pos_iff_ne_zero.1 hpos, if_false]
  rw [hp k.remainder (by omega) _ (by simp [State.select, State.dataMode])]
  by_cases hr : 0 < k.remainder
  · rw [if_pos hr, if_pos (by exact hr)]
    simp [State.select, State.dataMode, State.send, State.deselect, State.emit, State.setCs, State.setDc, hk, k]
  · rw [if_neg hr, if_neg (by exact hr)]
    simp [State.select, State.dataMode, State.deselect, State.emit, State.setCs, State.setDc, hk, k]

/-- The frame of a burst, in every state: outputs, trace, buffer and the burst's own working values. -/
theorem burst_frame (color : U16) (count : U32) (s : State) :
    let t := burst color count s
    t = { s with trace := t.trace, cs := t.cs, dc := t.dc, bb := t.bb, burstWork := t.burstWork } := by
  dsimp only
  unfold burst
  split
  · rfl
  · dsimp only
    rw [fillBuffer_eq, sendBlocks_eq]
    unfold sendRemainder
    split <;> rfl

end Sys2Proof.Machine
end

