-- ==== Sys2Proof/Laws/Framer.lean ====
section
/-! SUPPORT. Everything the framer's procedures do, each as one state. -/

namespace Sys2Proof.Machine

theorem cmdFrame_eq (b : Byte) (s : State) :
    cmdFrame b s = { s with trace := s.trace ++ commandFrame b, cs := .deasserted, dc := .command } := by
  simp [cmdFrame, State.select, State.commandMode, State.send, State.deselect, State.emit, State.setCs, State.setDc,
    commandFrame]

theorem parFrame_eq (b : Byte) (s : State) :
    parFrame b s = { s with trace := s.trace ++ parameterFrame b, cs := .deasserted, dc := .data } := by
  simp [parFrame, State.select, State.dataMode, State.send, State.deselect, State.emit, State.setCs, State.setDc,
    parameterFrame]

theorem window_eq (x1 y1 x2 y2 : U16) (s : State) :
    window x1 y1 x2 y2 s =
      { s with trace := s.trace ++ windowEvents s.cfg x1 y1 x2 y2, cs := .deasserted, dc := .command } := by
  simp [window, parFrame16, cmdFrame_eq, parFrame_eq, windowEvents]

theorem setOrientation_valid {mode : U16} (h : mode ≤ 3) (s : State) :
    setOrientation mode s =
      { s with trace := s.trace ++ (commandFrame s.cfg.opcMadctl ++ parameterFrame (oriByte s.cfg mode)),
               cs := .deasserted, dc := .data, geom := modeGeometry mode } := by
  rw [setOrientation, if_pos h]
  simp [cmdFrame_eq, parFrame_eq]

theorem setOrientation_invalid {mode : U16} (h : ¬ mode ≤ 3) (s : State) : setOrientation mode s = s := by
  rw [setOrientation, if_neg h]

/-- `modeGeometry` answers one of the two pairs (R22). -/
theorem modeGeometry_legal (mode : U16) : (modeGeometry mode).Legal := by
  unfold modeGeometry Geometry.Legal
  split <;> simp

end Sys2Proof.Machine
end

