-- ==== Sys2Proof/Laws/Operands.lean ====
section
/-! SUPPORT. The number forms of R10 and the clamps and corners of R141 and R144 as natural numbers. -/

namespace Sys2Proof.Machine

theorem minU_toNat (a b : U16) : (minU a b).toNat = min a.toNat b.toNat := by
  unfold minU
  split <;> rename_i h <;> rw [BitVec.le_def] at h <;> omega

theorem maxU_toNat (a b : U16) : (maxU a b).toNat = max a.toNat b.toNat := by
  unfold maxU
  split <;> rename_i h <;> rw [BitVec.le_def] at h <;> omega

theorem minU_le_maxU (a b : U16) : minU a b ≤ maxU a b := by
  rw [BitVec.le_def, minU_toNat, maxU_toNat]
  omega

theorem minU_comm (a b : U16) : minU a b = minU b a :=
  BitVec.eq_of_toNat_eq (by rw [minU_toNat, minU_toNat]; omega)

theorem maxU_comm (a b : U16) : maxU a b = maxU b a :=
  BitVec.eq_of_toNat_eq (by rw [maxU_toNat, maxU_toNat]; omega)

/-- A difference that does not wrap. -/
theorem sub_toNat {a b : U16} (h : b ≤ a) : (a - b).toNat = a.toNat - b.toNat := by bv_omega

theorem eq_ofNat {v : U16} {n : Nat} (h : v.toNat = n) : v = BitVec.ofNat 16 n := by
  rw [← h]
  simp

theorem eq_zero_iff {v : U16} : v = 0 ↔ v.toNat = 0 :=
  ⟨fun h => h ▸ rfl, fun h => BitVec.eq_of_toNat_eq h⟩

theorem trunc16_toNat (n : Int) : (trunc16 n).toNat = (n % 65536).toNat := by simp [trunc16]

theorem offPanel_iff {g : Geometry} {x y : U16} : offPanel g x y = true ↔ g.width ≤ x ∨ g.height ≤ y := by
  simp [offPanel]

/-- The clamp of R141, for an origin on the panel. -/
theorem clamp_toNat {limit origin : U16} (h : origin < limit) (extent : U16) :
    (clamp limit origin extent).toNat = min extent.toNat (limit.toNat - origin.toNat) := by
  rw [clamp, minU_toNat, sub_toNat (by bv_omega)]

theorem corners_eq (x0 y0 x1 y1 : U16) :
    corners x0 y0 x1 y1 =
      ⟨.ofNat 16 (min x0.toNat x1.toNat), .ofNat 16 (max x0.toNat x1.toNat),
        .ofNat 16 (min y0.toNat y1.toNat), .ofNat 16 (max y0.toNat y1.toNat),
        .ofNat 16 (max x0.toNat x1.toNat - min x0.toNat x1.toNat),
        .ofNat 16 (max y0.toNat y1.toNat - min y0.toNat y1.toNat)⟩ := by
  unfold corners
  congr 1 <;> apply eq_ofNat <;>
    first
    | rw [sub_toNat (minU_le_maxU _ _), minU_toNat, maxU_toNat]
    | rw [minU_toNat]
    | rw [maxU_toNat]

/-- A delta of R144 is 0 exactly when the two coordinates are equal. -/
theorem delta_eq_zero (a b : U16) : maxU a b - minU a b = 0 ↔ a = b := by
  rw [eq_zero_iff, sub_toNat (minU_le_maxU a b), minU_toNat, maxU_toNat, ← BitVec.toNat_inj]
  omega

theorem corners_swap_x (x0 y0 x1 y1 : U16) : corners x0 y0 x1 y1 = corners x1 y0 x0 y1 := by
  unfold corners
  rw [minU_comm, maxU_comm]

theorem corners_swap_y (x0 y0 x1 y1 : U16) : corners x0 y0 x1 y1 = corners x0 y1 x1 y0 := by
  unfold corners
  rw [minU_comm y0, maxU_comm y0]

end Sys2Proof.Machine
end

