-- ==== Sys2Proof/Laws/Raster.lean ====
section
/-! SUPPORT. Everything a drawing procedure does: one relation, closed under one procedure after another. -/

namespace Sys2Proof.Machine

/-- What a drawing procedure of one colour does to the state it is called in: it appends its events, leaves chip-select
released and data mode when it emitted any, fills the first bytes of `BB` with the colour, and writes nothing but working values
of R30 and R31 beside. -/
structure Draws (color : U16) (ev : List Event) (s t : State) : Prop where
  trace : t.trace = s.trace ++ ev
  cs : t.cs = if ev = [] then s.cs else .deasserted
  dc : t.dc = if ev = [] then s.dc else .data
  bytes : ∀ a, t.bb.read a = if a < longestSend ev then patternByte color a else s.bb.read a
  canonical : t.bb.wf = true
  inRange : s.BufferInRange → t.BufferInRange
  geom : t.geom = s.geom
  latches : t.latches = s.latches
  pc : t.pc = s.pc
  busy : t.busy = s.busy
  program : t.program = s.program
  resetIn : t.resetIn = s.resetIn
  cfg : t.cfg = s.cfg

theorem Draws.nothing (color : U16) {s : State} (hm : s.bb.wf = true) : Draws color [] s s where
  trace := by simp
  cs := by simp
  dc := by simp
  bytes a := by simp [longestSend]
  canonical := hm
  inRange := id
  geom := rfl
  latches := rfl
  pc := rfl
  busy := rfl
  program := rfl
  resetIn := rfl
  cfg := rfl

/-- One procedure after another, in the same colour. -/
theorem Draws.trans {color : U16} {ev ev' : List Event} {s t u : State} (h : Draws color ev s t)
    (h' : Draws color ev' t u) : Draws color (ev ++ ev') s u where
  trace := by rw [h'.trace, h.trace, List.append_assoc]
  cs := by
    rw [h'.cs, h.cs]
    by_cases h1 : ev' = [] <;> by_cases h2 : ev = [] <;> simp [h1, h2]
  dc := by
    rw [h'.dc, h.dc]
    by_cases h1 : ev' = [] <;> by_cases h2 : ev = [] <;> simp [h1, h2]
  bytes a := by
    rw [h'.bytes, h.bytes, longestSend_append]
    by_cases h1 : a < longestSend ev' <;> by_cases h2 : a < longestSend ev <;> simp [h1, h2]
  canonical := h'.canonical
  inRange hs := h'.inRange (h.inRange hs)
  geom := h'.geom.trans h.geom
  latches := h'.latches.trans h.latches
  pc := h'.pc.trans h.pc
  busy := h'.busy.trans h.busy
  program := h'.program.trans h.program
  resetIn := h'.resetIn.trans h.resetIn
  cfg := h'.cfg.trans h.cfg

/-- The same of a whole operation, as its outputs and the buffer show it. -/
theorem Draws.emits {color : U16} {ev : List Event} {s t : State} (h : Draws color ev s t) :
    EmitsInColor color ev s t.complete :=
  ⟨h.trace, h.cs, h.dc, h.bytes⟩

theorem Config.two_le_burstCap {c : Config} (h : c.wellFormed = true) : 2 ≤ c.burstCap := by
  simp [Config.wellFormed] at h
  exact h.1

theorem Config.burstCap_even {c : Config} (h : c.wellFormed = true) : c.burstCap % 2 = 0 := by
  simp [Config.wellFormed] at h
  exact h.2

theorem Config.resetGeom_legal (c : Config) : c.resetGeom.Legal := by
  unfold Config.resetGeom Geometry.Legal
  split <;> simp

/-- A window and a burst of at least one pixel, the only way anything is drawn (R146), as one state. -/
theorem burst_window_eq {color : U16} {count : U32} (hc : count ≠ 0) {s : State} (hcap : 2 ≤ s.cfg.burstCap)
    (hm : s.bb.wf = true) (x1 y1 x2 y2 : U16) :
    let k := burstArithmetic s.cfg.burstCap count.toNat
    burst color count (window x1 y1 x2 y2 s) =
      { s with trace := s.trace ++ (windowEvents s.cfg x1 y1 x2 y2 ++ burstEvents s.cfg color count.toNat),
               cs := .deasserted, dc := .data,
               bb := (fillBuffer color k.bufferSize s).bb, burstWork := { k with block := k.fullBlocks } } := by
  intro k
  have h := burst_eq (color := color) hc (s := window x1 y1 x2 y2 s) (by rw [window_eq]; exact hcap)
    (by rw [window_eq]; exact hm)
  dsimp only at h
  rw [fillBuffer_congr color _ (s := s) (by rw [window_eq])] at h
  rw [h, window_eq]
  simp [k]

theorem toNat_ne_zero {n : Nat} {v : BitVec n} (h : v ≠ 0) : 0 < v.toNat := by
  rw [Nat.pos_iff_ne_zero]
  exact fun e => h (BitVec.eq_of_toNat_eq (by simpa using e))

theorem burst_window_draws {color : U16} {count : U32} (hc : count ≠ 0) {s : State} (hw : s.cfg.wellFormed = true)
    (hm : s.bb.wf = true) (x1 y1 x2 y2 : U16) :
    Draws color (windowEvents s.cfg x1 y1 x2 y2 ++ burstEvents s.cfg color count.toNat) s
      (burst color count (window x1 y1 x2 y2 s)) := by
  have hcap := Config.two_le_burstCap hw
  obtain ⟨h1, h2, -⟩ := burstArithmetic_facts hcap (toNat_ne_zero hc)
  obtain ⟨f1, f2⟩ := fillBuffer_bb color (burstArithmetic s.cfg.burstCap count.toNat).bufferSize hm
  rw [burst_window_eq hc hcap hm]
  constructor
  case bytes =>
    intro a
    rw [longestSend_append, longestSend_windowEvents, longestSend_burstEvents hcap _ (toNat_ne_zero hc),
      Nat.max_eq_right (by omega)]
    exact f2 a
  case canonical => exact f1
  case inRange => exact fun hs => fillBuffer_below color h2 hs
  all_goals simp

/-- `Pixel` (R140). -/
theorem pixel_draws {s : State} (hw : s.cfg.wellFormed = true) (hm : s.bb.wf = true) (x y color : U16) :
    Draws color (pixelEvents s.cfg s.geom x y color) s (pixel x y color s) := by
  unfold pixel pixelEvents
  split
  · exact Draws.nothing color hm
  · exact burst_window_draws (count := 1) (by decide) hw hm x y x y

/-- The exact product fits (R141). -/
theorem area_toNat (w h : U16) : (area w h).toNat = w.toNat * h.toNat := by
  have hw := w.isLt
  have hh := h.isLt
  have : w.toNat * h.toNat < 2 ^ 32 := by
    calc w.toNat * h.toNat ≤ (2 ^ 16 - 1) * (2 ^ 16 - 1) := Nat.mul_le_mul (by omega) (by omega)
      _ < 2 ^ 32 := by norm_num
  rw [area, BitVec.toNat_mul, BitVec.toNat_setWidth, BitVec.toNat_setWidth, Nat.mod_eq_of_lt (a := w.toNat) (by omega),
    Nat.mod_eq_of_lt (a := h.toNat) (by omega), Nat.mod_eq_of_lt this]

theorem area_ne_zero {w h : U16} (hw : w ≠ 0) (hh : h ≠ 0) : area w h ≠ 0 := by
  intro e
  have := congrArg BitVec.toNat e
  rw [area_toNat] at this
  have h1 := toNat_ne_zero hw
  have h2 := toNat_ne_zero hh
  have : 0 < w.toNat * h.toNat := Nat.mul_pos h1 h2
  simp at *
  omega

/-- Working values written before drawing change nothing of what drawing does. -/
theorem Draws.afterWork {color : U16} {ev : List Event} {s t : State} {k : ClampWork} {c : CornerWork} {p : PointWork}
    (h : Draws color ev { s with clampWork := k, cornerWork := c, pointWork := p } t) : Draws color ev s t where
  trace := h.trace
  cs := h.cs
  dc := h.dc
  bytes := h.bytes
  canonical := h.canonical
  inRange := h.inRange
  geom := h.geom
  latches := h.latches
  pc := h.pc
  busy := h.busy
  program := h.program
  resetIn := h.resetIn
  cfg := h.cfg

/-- `RectF` (R141). -/
theorem rectF_draws {s : State} (hw : s.cfg.wellFormed = true) (hm : s.bb.wf = true) (x y w h color : U16) :
    Draws color (rectEvents s.cfg s.geom x y w h color) s (rectF x y w h color s) := by
  unfold rectF rectEvents clamp
  by_cases h0 : offPanel s.geom x y = true
  · rw [if_pos h0, if_pos (.inl h0)]
    exact Draws.nothing color hm
  · rw [if_neg h0]
    dsimp only
    by_cases hz : minU w (s.geom.width - x) = 0 ∨ minU h (s.geom.height - y) = 0
    · rw [if_pos hz, if_pos (.inr hz)]
      exact Draws.afterWork (k := ⟨_, _, _⟩) (c := s.cornerWork) (p := s.pointWork) (Draws.nothing color (by exact hm))
    · rw [if_neg hz, if_neg (not_or.2 ⟨h0, hz⟩), ← area_toNat]
      have hz' := not_or.1 hz
      have d := burst_window_draws (color := color) (area_ne_zero hz'.1 hz'.2)
        (s := { s with clampWork := ⟨minU w (s.geom.width - x), minU h (s.geom.height - y),
          area (minU w (s.geom.width - x)) (minU h (s.geom.height - y))⟩ }) hw hm
        x y (x + minU w (s.geom.width - x) - 1) (y + minU h (s.geom.height - y) - 1)
      exact d.afterWork

/-- `Plot` (R162). -/
theorem plot_draws {s : State} (hw : s.cfg.wellFormed = true) (hm : s.bb.wf = true) (cx cy : U16) (o : Int × Int)
    (color : U16) : Draws color (plotEvents s.cfg s.geom cx cy o color) s (plot cx cy o color s) :=
  Draws.afterWork (k := s.clampWork) (c := s.cornerWork)
    (p := ⟨trunc16 (cx.toNat + o.1), trunc16 (cy.toNat + o.2)⟩)
    (pixel_draws (s := { s with pointWork := ⟨trunc16 (cx.toNat + o.1), trunc16 (cy.toNat + o.2)⟩ }) hw hm _ _ color)

/-- `Plot` over a list of offsets (R164). -/
theorem plotAll_draws (cx cy : U16) (offsets : List (Int × Int)) (color : U16) {s : State}
    (hw : s.cfg.wellFormed = true) (hm : s.bb.wf = true) :
    Draws color (offsets.flatMap fun o => plotEvents s.cfg s.geom cx cy o color) s (plotAll cx cy offsets color s) := by
  induction offsets generalizing s with
  | nil => exact Draws.nothing color hm
  | cons o os ih =>
    have h1 := plot_draws hw hm cx cy o color
    have h2 := ih (s := plot cx cy o color s) (by rw [h1.cfg]; exact hw) h1.canonical
    rw [h1.cfg, h1.geom] at h2
    exact h1.trans h2

theorem rectHollow_draws {s : State} (hw : s.cfg.wellFormed = true) (hm : s.bb.wf = true) (x0 y0 x1 y1 color : U16) :
    Draws color (hollowRectEvents s.cfg s.geom (corners x0 y0 x1 y1) color) s (rectHollow x0 y0 x1 y1 color s) := by
  unfold rectHollow hollowRectEvents
  generalize corners x0 y0 x1 y1 = k
  have rect : ∀ {t : State} {ev : List Event}, Draws color ev s t → ∀ x y w h,
      Draws color (ev ++ rectEvents s.cfg s.geom x y w h color) s (rectF x y w h color t) := fun {t ev} d x y w h => by
    have := rectF_draws (s := t) (by rw [d.cfg]; exact hw) d.canonical x y w h color
    rw [d.cfg, d.geom] at this
    exact d.trans this
  have d0 : Draws color [] s { s with cornerWork := k } :=
    Draws.afterWork (k := s.clampWork) (c := k) (p := s.pointWork) (Draws.nothing color (by exact hm))
  have d4 := rect (rect (rect (rect d0 k.xa k.ya k.dx 1) k.xa k.yb k.dx 1) k.xa k.ya 1 k.dy) k.xb k.ya 1 k.dy
  rw [List.nil_append] at d4
  dsimp only
  split
  · have := pixel_draws (by rw [d4.cfg]; exact hw) d4.canonical k.xb k.yb color
    rw [d4.cfg, d4.geom] at this
    exact d4.trans this
  · simpa using d4

/-! ### The frames, in every state -/

theorem window_frame (x1 y1 x2 y2 : U16) (s : State) :
    let t := window x1 y1 x2 y2 s
    t = { s with trace := t.trace, cs := t.cs, dc := t.dc } := by
  dsimp only
  rw [window_eq]

theorem pixel_frame (x y color : U16) (s : State) :
    let t := pixel x y color s
    t = { s with trace := t.trace, cs := t.cs, dc := t.dc, bb := t.bb, burstWork := t.burstWork } := by
  dsimp only
  unfold pixel
  split
  · rfl
  · rw [burst_frame, window_eq]

theorem rectF_frame (x y w h color : U16) (s : State) :
    let t := rectF x y w h color s
    t = { s with trace := t.trace, cs := t.cs, dc := t.dc, bb := t.bb, burstWork := t.burstWork, clampWork := t.clampWork } := by
  dsimp only
  unfold rectF
  split
  · rfl
  · dsimp only
    split
    · rfl
    · rw [burst_frame, window_eq]

theorem plot_frame (cx cy : U16) (o : Int × Int) (color : U16) (s : State) :
    let t := plot cx cy o color s
    t = { s with trace := t.trace, cs := t.cs, dc := t.dc, bb := t.bb, burstWork := t.burstWork, pointWork := t.pointWork } := by
  dsimp only
  unfold plot
  dsimp only
  rw [pixel_frame]

theorem plot_frames {s t u : State}
    (h : t = { s with trace := t.trace, cs := t.cs, dc := t.dc, bb := t.bb, burstWork := t.burstWork,
                      pointWork := t.pointWork })
    (h' : u = { t with trace := u.trace, cs := u.cs, dc := u.dc, bb := u.bb, burstWork := u.burstWork,
                       pointWork := u.pointWork }) :
    u = { s with trace := u.trace, cs := u.cs, dc := u.dc, bb := u.bb, burstWork := u.burstWork,
                 pointWork := u.pointWork } :=
  h'.trans (congrArg (fun v : State => { v with trace := u.trace, cs := u.cs, dc := u.dc, bb := u.bb,
                                                burstWork := u.burstWork, pointWork := u.pointWork }) h)

theorem rect_frames {s t u : State}
    (h : t = { s with trace := t.trace, cs := t.cs, dc := t.dc, bb := t.bb, burstWork := t.burstWork,
                      clampWork := t.clampWork })
    (h' : u = { t with trace := u.trace, cs := u.cs, dc := u.dc, bb := u.bb, burstWork := u.burstWork,
                       clampWork := u.clampWork }) :
    u = { s with trace := u.trace, cs := u.cs, dc := u.dc, bb := u.bb, burstWork := u.burstWork,
                 clampWork := u.clampWork } :=
  h'.trans (congrArg (fun v : State => { v with trace := u.trace, cs := u.cs, dc := u.dc, bb := u.bb,
                                                burstWork := u.burstWork, clampWork := u.clampWork }) h)

theorem plotAll_frame (cx cy : U16) (offsets : List (Int × Int)) (color : U16) (s : State) :
    let t := plotAll cx cy offsets color s
    t = { s with trace := t.trace, cs := t.cs, dc := t.dc, bb := t.bb, burstWork := t.burstWork, pointWork := t.pointWork } := by
  induction offsets generalizing s with
  | nil => rfl
  | cons o os ih => exact plot_frames (plot_frame cx cy o color s) (ih (plot cx cy o color s))

/-- `RectF` after `RectF`, and the far corner: RECTH after its corners are latched. -/
theorem rectHollow_frame (x0 y0 x1 y1 color : U16) (s : State) :
    let t := rectHollow x0 y0 x1 y1 color s
    t = { s with trace := t.trace, cs := t.cs, dc := t.dc, bb := t.bb, burstWork := t.burstWork, clampWork := t.clampWork,
                 cornerWork := corners x0 y0 x1 y1 } := by
  dsimp only
  unfold rectHollow
  generalize corners x0 y0 x1 y1 = k
  dsimp only
  have h4 := rect_frames (rect_frames (rect_frames (rectF_frame k.xa k.ya k.dx 1 color { s with cornerWork := k })
    (rectF_frame k.xa k.yb k.dx 1 color _)) (rectF_frame k.xa k.ya 1 k.dy color _)) (rectF_frame k.xb k.ya 1 k.dy color _)
  split
  · refine rect_frames h4 ?_
    generalize rectF k.xb k.ya 1 k.dy color _ = u
    have h := pixel_frame k.xb k.yb color u
    dsimp only at h
    generalize pixel k.xb k.yb color u = v at *
    have hk := congrArg State.clampWork h
    dsimp only at hk
    rw [hk]
    exact h
  · exact h4

/-- RECTFC draws the rectangle at the ordered corners, whatever `xb` and `yb` hold. -/
theorem rectFromCorners_draws {s : State} (hw : s.cfg.wellFormed = true) (hm : s.bb.wf = true) (x0 y0 x1 y1 color : U16) :
    let k := corners x0 y0 x1 y1
    Draws color (rectEvents s.cfg s.geom k.xa k.ya k.dx k.dy color) s (rectFromCorners x0 y0 x1 y1 color s) := by
  dsimp only
  unfold rectFromCorners
  generalize corners x0 y0 x1 y1 = k
  dsimp only
  generalize hc : ({ k with xb := s.cornerWork.xb, yb := s.cornerWork.yb } : CornerWork) = c
  have d := rectF_draws (s := { s with cornerWork := c }) hw hm k.xa k.ya k.dx k.dy color
  exact Draws.afterWork (s := s) (k := s.clampWork) (c := c) (p := s.pointWork) d

/-! ### `RectF`, case by case (R141) -/

theorem rectF_off {x y w h color : U16} {s : State} (h0 : s.geom.width ≤ x ∨ s.geom.height ≤ y) :
    rectF x y w h color s = s := by
  rw [rectF, if_pos (offPanel_iff.2 h0)]

/-- The zero test: nothing but the clamp's working values. -/
theorem rectF_zero {x y w h color : U16} {s : State} (hx : x < s.geom.width) (hy : y < s.geom.height)
    (h0 : clamp s.geom.width x w = 0 ∨ clamp s.geom.height y h = 0) :
    ∃ k, rectF x y w h color s = { s with clampWork := k } := by
  have hn : ¬ offPanel s.geom x y = true := by
    rw [offPanel_iff]
    bv_omega
  rw [rectF, if_neg hn]
  dsimp only
  rw [if_pos (by exact h0)]
  exact ⟨_, rfl⟩

/-- The window and the burst, as one state. -/
theorem rectF_eq {x y w h color : U16} {s : State} (hw : s.cfg.wellFormed = true) (hm : s.bb.wf = true)
    (hx : x < s.geom.width) (hy : y < s.geom.height) (hW : clamp s.geom.width x w ≠ 0)
    (hH : clamp s.geom.height y h ≠ 0) :
    let w' := clamp s.geom.width x w
    let h' := clamp s.geom.height y h
    let k := burstArithmetic s.cfg.burstCap (area w' h').toNat
    rectF x y w h color s =
      { s with trace := s.trace ++ (windowEvents s.cfg x y (x + w' - 1) (y + h' - 1) ++
                 burstEvents s.cfg color (area w' h').toNat),
               cs := .deasserted, dc := .data, bb := (fillBuffer color k.bufferSize s).bb,
               burstWork := { k with block := k.fullBlocks }, clampWork := ⟨w', h', area w' h'⟩ } := by
  have hn : ¬ offPanel s.geom x y = true := by
    rw [offPanel_iff]
    bv_omega
  have e : rectF x y w h color s = burst color (area (clamp s.geom.width x w) (clamp s.geom.height y h))
      (window x y (x + clamp s.geom.width x w - 1) (y + clamp s.geom.height y h - 1)
        { s with clampWork := ⟨clamp s.geom.width x w, clamp s.geom.height y h,
                               area (clamp s.geom.width x w) (clamp s.geom.height y h)⟩ }) := by
    rw [rectF, if_neg hn]
    exact if_neg (not_or.2 ⟨hW, hH⟩)
  rw [e]
  generalize clamp s.geom.width x w = w' at *
  generalize clamp s.geom.height y h = h' at *
  dsimp only
  rw [burst_window_eq (area_ne_zero hW hH) (by exact Config.two_le_burstCap hw) (by exact hm),
    fillBuffer_congr color _ (s := s) (t := { s with clampWork := ⟨w', h', area w' h'⟩ }) rfl]

end Sys2Proof.Machine
end

