-- ==== Sys2Proof/Laws/Circle.lean ====
section
/-! SUPPORT. Everything the circles do: their frames, and the invariants of their loops. -/

namespace Sys2Proof.Machine

/-- Registers of R31 written after drawing change nothing of what drawing does. -/
theorem Draws.beforeWork {color : U16} {ev : List Event} {s t : State} (h : Draws color ev s t) (hw : HollowWork)
    (fw : FilledWork) : Draws color ev s { t with hollowWork := hw, filledWork := fw } where
  trace := h.trace
  cs := h.cs
  dc := h.dc
  bytes := h.bytes
  canonical := h.canonical
  inRange := h.inRange
  geom := h.geom
  latches := h.latches
  pc := h.pc
  busy := h.busy
  program := h.program
  resetIn := h.resetIn
  cfg := h.cfg

/-- The body of CIRCH (R160, R164). -/
theorem circleHollow_draws (cx cy r color : U16) {s : State} (hw : s.cfg.wellFormed = true) (hm : s.bb.wf = true) :
    Draws color ((hollowOffsets r.toNat).flatMap fun o => plotEvents s.cfg s.geom cx cy o color) s
      (circleHollow cx cy r color s) := by
  unfold circleHollow
  generalize hollowRegisters r.toNat = k
  exact (plotAll_draws cx cy (hollowOffsets r.toNat) color hw hm).beforeWork k _

/-- The body of CIRCF (R161, R164). -/
theorem circleFilled_draws (cx cy r color : U16) {s : State} (hw : s.cfg.wellFormed = true) (hm : s.bb.wf = true) :
    Draws color ((filledOffsets r.toNat).flatMap fun o => plotEvents s.cfg s.geom cx cy o color) s
      (circleFilled cx cy r color s) := by
  unfold circleFilled
  generalize filledRegisters r.toNat = k
  exact (plotAll_draws cx cy (filledOffsets r.toNat) color hw hm).beforeWork _ k

/-- The frame of CIRCH (R160), in every state. -/
theorem circleHollow_frame (cx cy r color : U16) (s : State) :
    let t := circleHollow cx cy r color s
    t = { s with trace := t.trace, cs := t.cs, dc := t.dc, bb := t.bb, burstWork := t.burstWork, pointWork := t.pointWork,
                 hollowWork := t.hollowWork } := by
  dsimp only
  unfold circleHollow
  generalize hollowRegisters r.toNat = k
  rw [plotAll_frame]

/-- The frame of CIRCF (R161), in every state. -/
theorem circleFilled_frame (cx cy r color : U16) (s : State) :
    let t := circleFilled cx cy r color s
    t = { s with trace := t.trace, cs := t.cs, dc := t.dc, bb := t.bb, burstWork := t.burstWork, pointWork := t.pointWork,
                 filledWork := t.filledWork } := by
  dsimp only
  unfold circleFilled
  generalize filledRegisters r.toNat = k
  rw [plotAll_frame]

/-! ### The hollow circle's loop -/

/-- What holds of the hollow circle's values at the start of a step and after the loop, for `r >= 1`. -/
structure Hollow.Inv (r : Int) (h : Hollow) : Prop where
  err : h.err = h.x * h.x + h.y * h.y - r * r
  dx : h.dx = 2 * r - 1 - 2 * h.x
  dy : h.dy = 1 + 2 * h.y
  y_nonneg : 0 ≤ h.y
  x_le : h.x ≤ r - 1
  x_ge : -1 ≤ h.x
  y_le : h.y ≤ r
  err_le : h.err ≤ 2
  err_ge : 1 - 2 * r ≤ h.err

theorem hollowStart_inv {r : Int} (hr : 1 ≤ r) : (hollowStart r).Inv r := by
  constructor <;> simp only [hollowStart]
  · ring
  all_goals omega

/-- A step inside the loop keeps it. -/
theorem hollowNext_inv {r : Int} {h : Hollow} (hi : h.Inv r) (hxy : h.y ≤ h.x) :
    (hollowNext r h).Inv r := by
  obtain ⟨h1, h2, h3, h4, h5, h6, h7, h8, h9⟩ := hi
  have hx0 : 0 ≤ h.x := le_trans h4 hxy
  have hpos : 0 < h.err → 1 ≤ h.x := fun hp => by
    by_contra hc
    have hx : h.x = 0 := by omega
    have hy : h.y = 0 := by omega
    rw [hx, hy] at h1
    nlinarith
  unfold hollowNext hollowSecond hollowFirst
  by_cases hc : h.err ≤ 0
  · rw [if_pos hc]
    dsimp only
    by_cases hd : 0 < h.err + h.dy
    · rw [if_pos hd]
      constructor <;> dsimp only
      · rw [h1, h2, h3]; ring
      all_goals omega
    · rw [if_neg hd]
      constructor <;> dsimp only
      · rw [h1, h3]; ring
      all_goals omega
  · rw [if_neg hc, if_pos (not_le.1 hc)]
    have := hpos (not_le.1 hc)
    constructor <;> dsimp only
    · rw [h1, h2]; ring
    all_goals omega

/-- In a step of the hollow circle `x - y` falls by 1 or 2 (R160 (e)). -/
theorem hollowNext_gap (r : Int) (h : Hollow) :
    h.x - h.y - ((hollowNext r h).x - (hollowNext r h).y) = 1 ∨
      h.x - h.y - ((hollowNext r h).x - (hollowNext r h).y) = 2 := by
  unfold hollowNext hollowSecond hollowFirst
  by_cases hc : h.err ≤ 0
  · rw [if_pos hc]
    split <;> dsimp only <;> omega
  · rw [if_neg hc, if_pos (not_le.1 hc)]
    dsimp only
    omega

/-- Every step of the loop starts in the invariant and inside the loop. -/
theorem hollowSteps_inv {r : Int} {fuel : Nat} {h g : Hollow} (hi : h.Inv r)
    (hg : g ∈ hollowSteps r fuel h) : g.Inv r ∧ g.y ≤ g.x := by
  induction fuel generalizing h with
  | zero => cases hg
  | succ fuel ih =>
    simp only [hollowSteps] at hg
    split at hg
    · rcases List.mem_cons.1 hg with rfl | hg
      · exact ⟨hi, ‹_›⟩
      · exact ih (hollowNext_inv hi ‹_›) hg
    · cases hg

theorem hollowEnd_inv {r : Int} {fuel : Nat} {h : Hollow} (hi : h.Inv r) : (hollowEnd r fuel h).Inv r := by
  induction fuel generalizing h with
  | zero => exact hi
  | succ fuel ih =>
    simp only [hollowEnd]
    split
    · exact ih (hollowNext_inv hi ‹_›)
    · exact hi

/-! ### The filled circle's loop -/

/-- The value the filled circle's next step adds `4 * y` to and then tests. -/
abbrev Filled.test (f : Filled) : Int := 2 * f.radiusError + f.xChange

/-- What holds of the filled circle's values at the start of a step and after the loop. -/
structure Filled.Inv (r : Int) (f : Filled) : Prop where
  radiusError : f.radiusError = f.x * f.x + f.y * f.y - f.y - r * r
  xChange : f.xChange = 1 - 2 * f.x
  yChange : f.yChange = 2 * f.y
  y_nonneg : 0 ≤ f.y
  x_le : f.x ≤ r
  x_ge : -1 ≤ f.x
  y_le : f.y ≤ r + 1
  test_le : f.test ≤ 8
  test_le_inside : f.y ≤ f.x → f.test ≤ 4
  test_ge : 1 - 4 * r ≤ f.test

theorem filledStart_inv {r : Int} (hr : 0 ≤ r) : (filledStart r).Inv r := by
  constructor <;> simp only [filledStart, Filled.test]
  · ring
  all_goals omega

/-- A step inside the loop keeps it. -/
theorem filledNext_inv {r : Int} {f : Filled} (hi : f.Inv r) (hxy : f.y ≤ f.x) : (filledNext f).Inv r := by
  obtain ⟨h1, h2, h3, h4, h5, h6, h7, h8, h9, h10⟩ := hi
  have h9 := h9 hxy
  simp only [Filled.test] at h8 h9 h10
  unfold filledNext filledColumn filledRow
  dsimp only
  by_cases hd : 0 < 2 * (f.radiusError + f.yChange) + f.xChange
  · rw [if_pos hd]
    constructor <;> dsimp only [Filled.test]
    · rw [h1, h2, h3]; ring
    all_goals omega
  · rw [if_neg hd]
    constructor <;> dsimp only [Filled.test]
    · rw [h1, h3]; ring
    all_goals omega

/-- In a step of the filled circle `y` rises by 1 and `x` falls by at most 1 (R161). -/
theorem filledNext_move (f : Filled) :
    (filledNext f).y = f.y + 1 ∧ ((filledNext f).x = f.x ∨ (filledNext f).x = f.x - 1) := by
  unfold filledNext filledColumn filledRow
  dsimp only
  split <;> simp

/-- Every step of the loop starts in the invariant and inside the loop. -/
theorem filledSteps_inv {r : Int} {fuel : Nat} {f g : Filled} (hi : f.Inv r) (hg : g ∈ filledSteps fuel f) :
    g.Inv r ∧ g.y ≤ g.x := by
  induction fuel generalizing f with
  | zero => cases hg
  | succ fuel ih =>
    simp only [filledSteps] at hg
    split at hg
    · rcases List.mem_cons.1 hg with rfl | hg
      · exact ⟨hi, ‹_›⟩
      · exact ih (filledNext_inv hi ‹_›) hg
    · cases hg

theorem filledEnd_inv {r : Int} {fuel : Nat} {f : Filled} (hi : f.Inv r) : (filledEnd fuel f).Inv r := by
  induction fuel generalizing f with
  | zero => exact hi
  | succ fuel ih =>
    simp only [filledEnd]
    split
    · exact ih (filledNext_inv hi ‹_›)
    · exact hi

theorem mem_symmetricRange {n i : Int} : i ∈ symmetricRange n ↔ -n ≤ i ∧ i ≤ n := by
  simp only [symmetricRange, List.mem_map, List.mem_range]
  constructor
  · rintro ⟨k, hk, rfl⟩
    omega
  · intro h
    exact ⟨(i + n).toNat, by omega, by omega⟩

theorem mem_spanPair {reach row : Int} {o : Int × Int} :
    o ∈ spanPair reach row ↔ -reach ≤ o.1 ∧ o.1 ≤ reach ∧ (o.2 = row ∨ o.2 = -row) := by
  obtain ⟨a, b⟩ := o
  simp only [spanPair, List.mem_flatMap, mem_symmetricRange, List.mem_cons, Prod.mk.injEq, List.not_mem_nil, or_false]
  constructor
  · rintro ⟨i, hi, ⟨rfl, rfl⟩ | ⟨rfl, rfl⟩⟩ <;> simp [hi]
  · rintro ⟨h1, h2, rfl | rfl⟩
    exacts [⟨a, ⟨h1, h2⟩, .inl ⟨rfl, rfl⟩⟩, ⟨a, ⟨h1, h2⟩, .inr ⟨rfl, rfl⟩⟩]

/-! ### The lists of steps -/

theorem mem_octants {x y a b : Int} :
    (a, b) ∈ octants x y ↔
      ((a = x ∨ a = -x) ∧ (b = y ∨ b = -y)) ∨ ((a = y ∨ a = -y) ∧ (b = x ∨ b = -x)) := by
  simp only [octants, List.mem_cons, Prod.mk.injEq, List.not_mem_nil, or_false]
  omega

theorem mem_hollowOffsets {r : Nat} {o : Int × Int} :
    o ∈ hollowOffsets r ↔ ∃ h ∈ hollowSteps r r (hollowStart r), o ∈ octants h.x h.y := by
  simp [hollowOffsets]

theorem mem_filledOffsets {r : Nat} {o : Int × Int} :
    o ∈ filledOffsets r ↔
      ∃ f ∈ filledSteps (r + 1) (filledStart r), o ∈ spanPair f.x f.y ∨ o ∈ spanPair f.y f.x := by
  simp [filledOffsets]

/-- A radius with a step is at least 1. -/
theorem one_le_of_mem_hollowSteps {r : Nat} {h : Hollow} (hh : h ∈ hollowSteps r r (hollowStart r)) : (1 : Int) ≤ r := by
  cases r with
  | zero => cases hh
  | succ r => push_cast; omega

/-- With fuel for the whole gap the hollow circle's loop ends by its own test, and more fuel changes nothing. -/
theorem hollow_ends (r : Int) {fuel : Nat} {h : Hollow} (hf : h.x - h.y < fuel) :
    (hollowEnd r fuel h).x < (hollowEnd r fuel h).y ∧ ∀ m, fuel ≤ m → hollowSteps r m h = hollowSteps r fuel h := by
  induction fuel generalizing h with
  | zero =>
    push_cast at hf
    refine ⟨by simp only [hollowEnd]; omega, fun m _ => ?_⟩
    cases m with
    | zero => rfl
    | succ m => simp only [hollowSteps]; rw [if_neg (by omega)]
  | succ n ih =>
    push_cast at hf
    have hm := hollowNext_gap r h
    simp only [hollowEnd, hollowSteps]
    split
    · obtain ⟨h1, h2⟩ := ih (h := hollowNext r h) (by omega)
      refine ⟨h1, fun m hm => ?_⟩
      obtain ⟨m, rfl⟩ : ∃ m', m = m' + 1 := ⟨m - 1, by omega⟩
      simp only [hollowSteps]
      rw [if_pos ‹_›, h2 m (by omega)]
    · refine ⟨by omega, fun m hm => ?_⟩
      cases m with
      | zero => rfl
      | succ m => simp only [hollowSteps]; rw [if_neg ‹_›]

/-- The same of the filled circle's loop. -/
theorem filled_ends {fuel : Nat} {f : Filled} (hf : f.x - f.y < fuel) :
    (filledEnd fuel f).x < (filledEnd fuel f).y ∧ ∀ m, fuel ≤ m → filledSteps m f = filledSteps fuel f := by
  induction fuel generalizing f with
  | zero =>
    push_cast at hf
    refine ⟨by simp only [filledEnd]; omega, fun m _ => ?_⟩
    cases m with
    | zero => rfl
    | succ m => simp only [filledSteps]; rw [if_neg (by omega)]
  | succ n ih =>
    push_cast at hf
    have hm := filledNext_move f
    simp only [filledEnd, filledSteps]
    split
    · obtain ⟨h1, h2⟩ := ih (f := filledNext f) (by omega)
      refine ⟨h1, fun m hm => ?_⟩
      obtain ⟨m, rfl⟩ : ∃ m', m = m' + 1 := ⟨m - 1, by omega⟩
      simp only [filledSteps]
      rw [if_pos ‹_›, h2 m (by omega)]
    · refine ⟨by omega, fun m hm => ?_⟩
      cases m with
      | zero => rfl
      | succ m => simp only [filledSteps]; rw [if_neg ‹_›]

theorem length_hollowSteps (r : Int) (fuel : Nat) (h : Hollow) : (hollowSteps r fuel h).length ≤ fuel := by
  induction fuel generalizing h with
  | zero => simp [hollowSteps]
  | succ n ih =>
    simp only [hollowSteps]
    split
    · simpa using ih _
    · simp

theorem length_filledSteps (fuel : Nat) (f : Filled) : (filledSteps fuel f).length ≤ fuel := by
  induction fuel generalizing f with
  | zero => simp [filledSteps]
  | succ n ih =>
    simp only [filledSteps]
    split
    · simpa using ih _
    · simp

/-- Later steps of the filled circle lie higher and not further out. -/
theorem filledSteps_later {fuel : Nat} {f g : Filled} (hg : g ∈ filledSteps fuel f) : f.y ≤ g.y ∧ g.x ≤ f.x := by
  induction fuel generalizing f with
  | zero => cases hg
  | succ n ih =>
    simp only [filledSteps] at hg
    split at hg
    · rcases List.mem_cons.1 hg with rfl | hg
      · simp
      · have := ih hg
        have := filledNext_move f
        omega
    · cases hg

/-- Every row up to a step's is the row of some step, at least as far out. -/
theorem filledSteps_row {fuel : Nat} {f g : Filled} (hg : g ∈ filledSteps fuel f) {j : Int} (h1 : f.y ≤ j)
    (h2 : j ≤ g.y) : ∃ k ∈ filledSteps fuel f, k.y = j ∧ g.x ≤ k.x := by
  induction fuel generalizing f with
  | zero => cases hg
  | succ n ih =>
    have hl := filledSteps_later hg
    simp only [filledSteps] at hg ⊢
    split at hg
    · rename_i hc
      rw [if_pos hc]
      by_cases hj : j = f.y
      · exact ⟨f, List.mem_cons_self .., hj.symm, hl.2⟩
      · rcases List.mem_cons.1 hg with rfl | hg
        · omega
        · obtain ⟨k, hk, h3⟩ := ih hg (by have := filledNext_move f; omega)
          exact ⟨k, List.mem_cons_of_mem _ hk, h3⟩
    · cases hg

/-- Every column from a step's inwards, down to the last row, is the column of some later step. -/
theorem filledSteps_column {fuel : Nat} {f g : Filled} (hend : (filledEnd fuel f).x < (filledEnd fuel f).y)
    (hg : g ∈ filledSteps fuel f) {j : Int} (h1 : j ≤ g.x) (h2 : ∀ k ∈ filledSteps fuel f, k.y < j) :
    ∃ k ∈ filledSteps fuel f, k.x = j ∧ g.y ≤ k.y := by
  induction fuel generalizing f g with
  | zero => cases hg
  | succ n ih =>
    simp only [filledSteps, filledEnd] at hg hend h2 ⊢
    split at hg
    · rename_i hc
      rw [if_pos hc] at hend h2 ⊢
      have hm := filledNext_move f
      rcases List.mem_cons.1 hg with rfl | hg
      · by_cases hj : g.x = j
        · exact ⟨g, List.mem_cons_self .., hj, le_rfl⟩
        · have hgy := h2 g (List.mem_cons_self ..)
          cases n with
          | zero =>
            simp only [filledEnd] at hend
            omega
          | succ m =>
            have hin : (filledNext g).y ≤ (filledNext g).x := by omega
            have hmem : filledNext g ∈ filledSteps (m + 1) (filledNext g) := by
              simp only [filledSteps, if_pos hin]
              exact List.mem_cons_self ..
            obtain ⟨k, hk, h3, h4⟩ := ih hend hmem (by omega) fun k hk => h2 k (List.mem_cons_of_mem _ hk)
            exact ⟨k, List.mem_cons_of_mem _ hk, h3, by omega⟩
      · obtain ⟨k, hk, h3⟩ := ih hend hg h1 fun k hk => h2 k (List.mem_cons_of_mem _ hk)
        exact ⟨k, List.mem_cons_of_mem _ hk, h3⟩
    · cases hg

/-- No offset of either circle exceeds the radius along an axis. -/
theorem offsets_within {r : Nat} {o : Int × Int} (h : o ∈ hollowOffsets r ∨ o ∈ filledOffsets r) :
    -r ≤ o.1 ∧ o.1 ≤ r ∧ -r ≤ o.2 ∧ o.2 ≤ r := by
  obtain ⟨a, b⟩ := o
  dsimp only
  rcases h with h | h
  · obtain ⟨g, hg, ho⟩ := mem_hollowOffsets.1 h
    obtain ⟨hi, hxy⟩ := hollowSteps_inv (hollowStart_inv (one_le_of_mem_hollowSteps hg)) hg
    rw [mem_octants] at ho
    have := hi.x_le
    have := hi.y_nonneg
    omega
  · obtain ⟨g, hg, ho⟩ := mem_filledOffsets.1 h
    obtain ⟨hi, hxy⟩ := filledSteps_inv (filledStart_inv (Int.natCast_nonneg r)) hg
    simp only [mem_spanPair] at ho
    have := hi.x_le
    have := hi.y_nonneg
    omega

end Sys2Proof.Machine
end

