-- ==== Sys2Proof/Laws/Decode.lean ====
section
/-! SUPPORT. The fields of a word, and decoding and encoding over fields. -/

namespace Sys2Proof

section fields
variable (op rsv : Byte) (a b c d e : U16)

@[simp] theorem CommandWord.op_ofFields : (CommandWord.ofFields op rsv a b c d e).op = op := by
  unfold CommandWord.op CommandWord.ofFields
  rw [BitVec.extractLsb'_append_eq_of_le (by decide),
    BitVec.extractLsb'_append_eq_of_le (by decide),
    BitVec.extractLsb'_append_eq_of_le (by decide),
    BitVec.extractLsb'_append_eq_of_le (by decide),
    BitVec.extractLsb'_append_eq_of_le (by decide),
    BitVec.extractLsb'_append_eq_of_le (by decide)]
  simp

@[simp] theorem CommandWord.rsv_ofFields : (CommandWord.ofFields op rsv a b c d e).rsv = rsv := by
  unfold CommandWord.rsv CommandWord.ofFields
  rw [BitVec.extractLsb'_append_eq_of_le (by decide),
    BitVec.extractLsb'_append_eq_of_le (by decide),
    BitVec.extractLsb'_append_eq_of_le (by decide),
    BitVec.extractLsb'_append_eq_of_le (by decide),
    BitVec.extractLsb'_append_eq_of_le (by decide),
    BitVec.extractLsb'_append_eq_of_add_le (by decide)]
  simp

@[simp] theorem CommandWord.a_ofFields : (CommandWord.ofFields op rsv a b c d e).a = a := by
  unfold CommandWord.a CommandWord.ofFields
  rw [BitVec.extractLsb'_append_eq_of_le (by decide),
    BitVec.extractLsb'_append_eq_of_le (by decide),
    BitVec.extractLsb'_append_eq_of_le (by decide),
    BitVec.extractLsb'_append_eq_of_le (by decide),
    BitVec.extractLsb'_append_eq_of_add_le (by decide)]
  simp

@[simp] theorem CommandWord.b_ofFields : (CommandWord.ofFields op rsv a b c d e).b = b := by
  unfold CommandWord.b CommandWord.ofFields
  rw [BitVec.extractLsb'_append_eq_of_le (by decide),
    BitVec.extractLsb'_append_eq_of_le (by decide),
    BitVec.extractLsb'_append_eq_of_le (by decide),
    BitVec.extractLsb'_append_eq_of_add_le (by decide)]
  simp

@[simp] theorem CommandWord.c_ofFields : (CommandWord.ofFields op rsv a b c d e).c = c := by
  unfold CommandWord.c CommandWord.ofFields
  rw [BitVec.extractLsb'_append_eq_of_le (by decide),
    BitVec.extractLsb'_append_eq_of_le (by decide),
    BitVec.extractLsb'_append_eq_of_add_le (by decide)]
  simp

@[simp] theorem CommandWord.d_ofFields : (CommandWord.ofFields op rsv a b c d e).d = d := by
  unfold CommandWord.d CommandWord.ofFields
  rw [BitVec.extractLsb'_append_eq_of_le (by decide),
    BitVec.extractLsb'_append_eq_of_add_le (by decide)]
  simp

@[simp] theorem CommandWord.e_ofFields : (CommandWord.ofFields op rsv a b c d e).e = e := by
  unfold CommandWord.e CommandWord.ofFields
  rw [BitVec.extractLsb'_append_eq_of_add_le (by decide)]
  simp

end fields

/-- A word is the concatenation of its fields (R80). -/
theorem CommandWord.ofFields_self (w : CommandWord) :
    CommandWord.ofFields w.op w.rsv w.a w.b w.c w.d w.e = w := by
  unfold CommandWord.op CommandWord.rsv CommandWord.a CommandWord.b CommandWord.c CommandWord.d CommandWord.e
    CommandWord.ofFields
  rw [BitVec.extractLsb'_append_extractLsb'_eq_extractLsb' (by decide),
    BitVec.extractLsb'_append_extractLsb'_eq_extractLsb' (by decide),
    BitVec.extractLsb'_append_extractLsb'_eq_extractLsb' (by decide),
    BitVec.extractLsb'_append_extractLsb'_eq_extractLsb' (by decide),
    BitVec.extractLsb'_append_extractLsb'_eq_extractLsb' (by decide),
    BitVec.extractLsb'_append_extractLsb'_eq_extractLsb' (by decide)]
  simp

/-- Decoding a word written as fields (R85). -/
theorem decode_ofFields (op rsv : Byte) (a b c d e : U16) :
    decode (.ofFields op rsv a b c d e) =
      if rsv ≠ 0 then .illegal (.reservedField rsv) else decodeFields op a b c d e := by
  simp [decode]

theorem byteOperand_setWidth (v : Byte) : byteOperand (v.setWidth 16) = v := by
  ext i hi
  simp [byteOperand, BitVec.getElem_setWidth, hi, show i < 16 by omega]

theorem countOperand_extract (v : U32) : countOperand (v.extractLsb' 16 16) (v.extractLsb' 0 16) = v := by
  unfold countOperand
  rw [BitVec.extractLsb'_append_extractLsb'_eq_extractLsb' (by decide)]
  simp

theorem countOperand_toNat (c d : U16) : (countOperand c d).toNat = c.toNat * 65536 + d.toNat := by
  unfold countOperand
  rw [BitVec.toNat_append, ← Nat.shiftLeft_add_eq_or_of_lt d.isLt, Nat.shiftLeft_eq]

theorem countOperand_hi (c d : U16) : (countOperand c d).extractLsb' 16 16 = c := by
  unfold countOperand
  rw [BitVec.extractLsb'_append_eq_of_le (by decide)]
  simp

theorem countOperand_lo (c d : U16) : (countOperand c d).extractLsb' 0 16 = d := by
  unfold countOperand
  rw [BitVec.extractLsb'_append_eq_of_add_le (by decide)]
  simp

/-- The byte operand written back is the field without its upper byte (R81 (a)). -/
theorem setWidth_byteOperand (a : U16) : (byteOperand a).setWidth 16 = a &&& 0x00FF := by
  apply BitVec.eq_of_toNat_eq
  have : a.toNat &&& 255 = a.toNat % 256 := Nat.and_two_pow_sub_one_eq_mod a.toNat 8
  simp [byteOperand, BitVec.toNat_setWidth]
  omega

/-- Masking a word masks its fields. -/
theorem CommandWord.ofFields_and (op rsv op' rsv' : Byte) (a b c d e a' b' c' d' e' : U16) :
    CommandWord.ofFields op rsv a b c d e &&& CommandWord.ofFields op' rsv' a' b' c' d' e' =
      CommandWord.ofFields (op &&& op') (rsv &&& rsv') (a &&& a') (b &&& b') (c &&& c') (d &&& d') (e &&& e') := by
  unfold CommandWord.ofFields
  rw [BitVec.and_append, BitVec.and_append, BitVec.and_append, BitVec.and_append, BitVec.and_append, BitVec.and_append]

/-- The thirteen assigned codes of R82. -/
abbrev assignedCodes : List Byte :=
  [0x01, 0x02, 0x03, 0x04, 0x05, 0x10, 0x11, 0x12, 0x13, 0x14, 0x15, 0x16, 0x17]

/-- `OP` alone decides whether the table has a row (R82). -/
theorem decodeFields_of_unassigned {op : Byte} (h : op ∉ assignedCodes) (a b c d e : U16) :
    decodeFields op a b c d e = .illegal (.unassignedOperation op) := by
  simp only [List.mem_cons, List.not_mem_nil, or_false, not_or] at h
  obtain ⟨h1, h2, h3, h4, h5, h6, h7, h8, h9, h10, h11, h12, h13⟩ := h
  rw [decodeFields, if_neg h1, if_neg h2, if_neg h3, if_neg h4, if_neg h5, if_neg h6, if_neg h7, if_neg h8, if_neg h9,
    if_neg h10, if_neg h11, if_neg h12, if_neg h13]

theorem decodeFields_of_assigned {op : Byte} (h : op ∈ assignedCodes) (a b c d e : U16) :
    ∃ i, decodeFields op a b c d e = .operation i := by
  simp only [List.mem_cons, List.not_mem_nil, or_false] at h
  rcases h with h | h | h | h | h | h | h | h | h | h | h | h | h <;> subst h <;> exact ⟨_, rfl⟩

end Sys2Proof
end

