-- ==== Sys2Proof/Laws/Step.lean ====
section
/-! SUPPORT. Everything one operation does to the live state, and everything one step can do. -/

namespace Sys2Proof.Machine

/-- What an operation does to every field but the working values: the one lemma that later proofs cite instead of a meaning. -/
structure Does (i : Instr) (s t : State) : Prop where
  trace : t.trace = s.trace ++ operationEvents s.cfg s.geom i
  geom : t.geom = operationGeometry s.geom i
  cs : t.cs = if operationEvents s.cfg s.geom i = [] then s.cs else .deasserted
  dc : t.dc = modeAfter s.dc (operationEvents s.cfg s.geom i)
  framed : Framed (operationEvents s.cfg s.geom i)
  canonical : t.bb.wf = true
  inRange : s.BufferInRange → t.BufferInRange
  latches : t.latches = s.latches
  pc : t.pc = s.pc + 1
  busy : t.busy = false
  program : t.program = s.program
  resetIn : t.resetIn = s.resetIn
  cfg : t.cfg = s.cfg

theorem framed_pixelEvents {cfg : Config} (h : 2 ≤ cfg.burstCap) (g : Geometry) (x y color : U16) :
    Framed (pixelEvents cfg g x y color) := by
  unfold pixelEvents
  split
  exacts [Framed.nil, (framed_windowEvents ..).append (framed_burstEvents h ..)]

theorem framed_rectEvents {cfg : Config} (h : 2 ≤ cfg.burstCap) (g : Geometry) (x y w hh color : U16) :
    Framed (rectEvents cfg g x y w hh color) := by
  unfold rectEvents
  dsimp only
  split
  exacts [Framed.nil, (framed_windowEvents ..).append (framed_burstEvents h ..)]

theorem framed_hollowRectEvents {cfg : Config} (h : 2 ≤ cfg.burstCap) (g : Geometry) (k : CornerWork) (color : U16) :
    Framed (hollowRectEvents cfg g k color) := by
  unfold hollowRectEvents
  refine Framed.append (((Framed.append ?_ ?_).append ?_).append ?_) ?_
  iterate 4 exact framed_rectEvents h ..
  split
  exacts [framed_pixelEvents h .., Framed.nil]

/-- The mode a list of events leaves, if the events are none or leave data mode. -/
def LeavesData (ev : List Event) : Prop := ∀ m, modeAfter m ev = if ev = [] then m else .data

theorem LeavesData.nil : LeavesData [] := fun _ => by simp [modeAfter]

theorem LeavesData.append {a b : List Event} (ha : LeavesData a) (hb : LeavesData b) : LeavesData (a ++ b) := fun m => by
  rw [modeAfter_append, hb, ha]
  by_cases h1 : a = [] <;> by_cases h2 : b = [] <;> simp [h1, h2]

theorem LeavesData.flatMap {α : Type} {l : List α} {f : α → List Event} (h : ∀ a ∈ l, LeavesData (f a)) :
    LeavesData (l.flatMap f) := by
  induction l with
  | nil => exact LeavesData.nil
  | cons a l ih =>
    rw [List.flatMap_cons]
    exact (h a (List.mem_cons_self ..)).append (ih fun b hb => h b (List.mem_cons_of_mem _ hb))

theorem leavesData_burst {cfg : Config} {color : U16} {n : Nat} : LeavesData (burstEvents cfg color n) := fun m => by
  rcases Nat.eq_zero_or_pos n with rfl | h
  · rfl
  · rw [modeAfter_burstEvents _ _ _ h, if_neg (burstEvents_ne_nil h)]

theorem leavesData_window_burst {cfg : Config} {x1 y1 x2 y2 color : U16} {n : Nat} (h : 0 < n) :
    LeavesData (windowEvents cfg x1 y1 x2 y2 ++ burstEvents cfg color n) := fun m => by
  rw [modeAfter_append, modeAfter_burstEvents _ _ _ h, if_neg (by simp)]

theorem leavesData_pixel {cfg : Config} {g : Geometry} {x y color : U16} :
    LeavesData (pixelEvents cfg g x y color) := by
  unfold pixelEvents
  split
  exacts [LeavesData.nil, leavesData_window_burst (by decide)]

theorem leavesData_rect {cfg : Config} {g : Geometry} {x y w h color : U16} :
    LeavesData (rectEvents cfg g x y w h color) := by
  unfold rectEvents
  dsimp only
  split
  · exact LeavesData.nil
  · rename_i hn
    simp only [not_or] at hn
    exact leavesData_window_burst (Nat.mul_pos (toNat_ne_zero hn.2.1) (toNat_ne_zero hn.2.2))

theorem leavesData_hollowRect {cfg : Config} {g : Geometry} {k : CornerWork} {color : U16} :
    LeavesData (hollowRectEvents cfg g k color) := by
  unfold hollowRectEvents
  refine LeavesData.append (((LeavesData.append ?_ ?_).append ?_).append ?_) ?_
  iterate 4 exact leavesData_rect
  split
  exacts [leavesData_pixel, LeavesData.nil]

/-- A drawing procedure as the body of an operation. -/
theorem Draws.does {i : Instr} {color : U16} {s t : State}
    (h : Draws color (operationEvents s.cfg s.geom i) s t) (hg : operationGeometry s.geom i = s.geom)
    (hf : Framed (operationEvents s.cfg s.geom i)) (hd : LeavesData (operationEvents s.cfg s.geom i)) :
    Does i s t.complete where
  trace := h.trace
  geom := h.geom.trans hg.symm
  cs := h.cs
  dc := h.dc.trans (hd s.dc).symm
  framed := hf
  canonical := h.canonical
  inRange := h.inRange
  latches := h.latches
  pc := by rw [← h.pc]; rfl
  busy := rfl
  program := h.program
  resetIn := h.resetIn
  cfg := h.cfg

/-- `Burst` as a drawing procedure. -/
theorem burst_draws (color : U16) (count : U32) {s : State} (hw : s.cfg.wellFormed = true) (hm : s.bb.wf = true) :
    Draws color (burstEvents s.cfg color count.toNat) s (burst color count s) := by
  by_cases hc : count = 0
  · subst hc
    exact Draws.nothing color hm
  · have hcap := Config.two_le_burstCap hw
    have hpos := toNat_ne_zero hc
    obtain ⟨h1, h2, -⟩ := burstArithmetic_facts hcap hpos
    obtain ⟨f1, f2⟩ := fillBuffer_bb color (burstArithmetic s.cfg.burstCap count.toNat).bufferSize hm
    rw [burst_eq hc hcap hm]
    constructor
    case bytes =>
      intro a
      rw [longestSend_burstEvents hcap _ hpos]
      exact f2 a
    case canonical => exact f1
    case inRange => exact fun hs => fillBuffer_below color h2 hs
    case cs => rw [if_neg (burstEvents_ne_nil hpos)]
    case dc => rw [if_neg (burstEvents_ne_nil hpos)]
    all_goals rfl

/-- Every operation answers a next state, and this is what it does to the live state. -/
theorem exec_does (i : Instr) {s : State} (hw : s.cfg.wellFormed = true) (hm : s.bb.wf = true) :
    ∃ t, exec i s = .next t ∧ Does i s t := by
  have hcap := Config.two_le_burstCap hw
  cases i with
  | wrcmd byte =>
    refine ⟨_, rfl, ?_⟩
    rw [cmdFrame_eq]
    exact ⟨rfl, rfl, rfl, rfl, rfl, hm, id, rfl, rfl, rfl, rfl, rfl, rfl⟩
  | wrpar byte =>
    refine ⟨_, rfl, ?_⟩
    rw [parFrame_eq]
    exact ⟨rfl, rfl, rfl, rfl, rfl, hm, id, rfl, rfl, rfl, rfl, rfl, rfl⟩
  | setwin x1 y1 x2 y2 =>
    refine ⟨_, rfl, ?_⟩
    rw [window_eq]
    exact ⟨rfl, rfl, rfl, rfl, rfl, hm, id, rfl, rfl, rfl, rfl, rfl, rfl⟩
  | setori mode =>
    refine ⟨_, rfl, ?_⟩
    by_cases h : mode ≤ 3
    · have he : operationEvents s.cfg s.geom (.setori mode) =
          commandFrame s.cfg.opcMadctl ++ parameterFrame (oriByte s.cfg mode) := if_pos h
      have hg : operationGeometry s.geom (.setori mode) = modeGeometry mode := if_pos h
      rw [setOrientation_valid h]
      constructor <;> (try rw [he]) <;> (try rw [hg])
      exacts [rfl, rfl, rfl, rfl, rfl, hm, id, rfl, rfl, rfl, rfl, rfl, rfl]
    · have he : operationEvents s.cfg s.geom (.setori mode) = [] := if_neg h
      have hg : operationGeometry s.geom (.setori mode) = s.geom := if_neg h
      rw [setOrientation_invalid h]
      constructor <;> (try rw [he]) <;> (try rw [hg])
      exacts [(List.append_nil _).symm, rfl, rfl, rfl, Framed.nil, hm, id, rfl, rfl, rfl, rfl, rfl, rfl]
  | burst color count =>
    exact ⟨_, rfl, (burst_draws color count hw hm).does rfl (framed_burstEvents hcap ..) leavesData_burst⟩
  | pixel x y color =>
    exact ⟨_, rfl, (pixel_draws hw hm x y color).does rfl (framed_pixelEvents hcap ..) leavesData_pixel⟩
  | rectf x y w h color =>
    exact ⟨_, rfl, (rectF_draws hw hm x y w h color).does rfl (framed_rectEvents hcap ..) leavesData_rect⟩
  | hline x y len color =>
    exact ⟨_, rfl, (rectF_draws hw hm x y len 1 color).does rfl (framed_rectEvents hcap ..) leavesData_rect⟩
  | vline x y len color =>
    exact ⟨_, rfl, (rectF_draws hw hm x y 1 len color).does rfl (framed_rectEvents hcap ..) leavesData_rect⟩
  | recth x0 y0 x1 y1 color =>
    exact ⟨_, rfl, (rectHollow_draws hw hm x0 y0 x1 y1 color).does rfl (framed_hollowRectEvents hcap ..)
      leavesData_hollowRect⟩
  | rectfc x0 y0 x1 y1 color =>
    exact ⟨_, rfl, (rectFromCorners_draws hw hm x0 y0 x1 y1 color).does (i := .rectfc x0 y0 x1 y1 color) rfl
      (framed_rectEvents hcap ..) leavesData_rect⟩
  | circh cx cy r color =>
    exact ⟨_, rfl, (circleHollow_draws cx cy r color hw hm).does (i := .circh cx cy r color) rfl
      (Framed.flatMap fun o _ => framed_pixelEvents hcap ..) (LeavesData.flatMap fun o _ => leavesData_pixel)⟩
  | circf cx cy r color =>
    exact ⟨_, rfl, (circleFilled_draws cx cy r color hw hm).does (i := .circf cx cy r color) rfl
      (Framed.flatMap fun o _ => framed_pixelEvents hcap ..) (LeavesData.flatMap fun o _ => leavesData_pixel)⟩

/-- Under those conditions a next state is the one of `exec_does`. -/
theorem Does.of_exec {i : Instr} {s t : State} (hw : s.cfg.wellFormed = true) (hm : s.bb.wf = true)
    (h : exec i s = .next t) : Does i s t := by
  obtain ⟨u, hu, d⟩ := exec_does i hw hm
  rw [hu] at h
  cases h
  exact d

/-- What every operation does in every state, whatever the configuration and the buffer. -/
theorem exec_frame (i : Instr) (s : State) :
    ∃ t, exec i s = .next t ∧ t.geom = operationGeometry s.geom i ∧ t.latches = s.latches ∧ t.pc = s.pc + 1 ∧
      t.busy = false ∧ t.program = s.program ∧ t.resetIn = s.resetIn ∧ t.cfg = s.cfg := by
  cases i with
  | wrcmd byte => exact ⟨_, rfl, by rw [cmdFrame_eq]; exact ⟨rfl, rfl, rfl, rfl, rfl, rfl, rfl⟩⟩
  | wrpar byte => exact ⟨_, rfl, by rw [parFrame_eq]; exact ⟨rfl, rfl, rfl, rfl, rfl, rfl, rfl⟩⟩
  | setwin x1 y1 x2 y2 => exact ⟨_, rfl, by rw [window_eq]; exact ⟨rfl, rfl, rfl, rfl, rfl, rfl, rfl⟩⟩
  | setori mode =>
    refine ⟨_, rfl, ?_⟩
    by_cases h : mode ≤ 3
    · rw [setOrientation_valid h, show operationGeometry s.geom (.setori mode) = modeGeometry mode from if_pos h]
      exact ⟨rfl, rfl, rfl, rfl, rfl, rfl, rfl⟩
    · rw [setOrientation_invalid h, show operationGeometry s.geom (.setori mode) = s.geom from if_neg h]
      exact ⟨rfl, rfl, rfl, rfl, rfl, rfl, rfl⟩
  | burst color count => exact ⟨_, rfl, by rw [burst_frame]; exact ⟨rfl, rfl, rfl, rfl, rfl, rfl, rfl⟩⟩
  | pixel x y color => exact ⟨_, rfl, by rw [pixel_frame]; exact ⟨rfl, rfl, rfl, rfl, rfl, rfl, rfl⟩⟩
  | rectf x y w h color => exact ⟨_, rfl, by rw [rectF_frame]; exact ⟨rfl, rfl, rfl, rfl, rfl, rfl, rfl⟩⟩
  | hline x y len color => exact ⟨_, rfl, by rw [rectF_frame]; exact ⟨rfl, rfl, rfl, rfl, rfl, rfl, rfl⟩⟩
  | vline x y len color => exact ⟨_, rfl, by rw [rectF_frame]; exact ⟨rfl, rfl, rfl, rfl, rfl, rfl, rfl⟩⟩
  | recth x0 y0 x1 y1 color => exact ⟨_, rfl, by rw [rectHollow_frame]; exact ⟨rfl, rfl, rfl, rfl, rfl, rfl, rfl⟩⟩
  | rectfc x0 y0 x1 y1 color =>
    exact ⟨_, rfl, by rw [rectFromCorners, rectF_frame]; exact ⟨rfl, rfl, rfl, rfl, rfl, rfl, rfl⟩⟩
  | circh cx cy r color =>
    exact ⟨_, rfl, by rw [circleHollow, plotAll_frame]; exact ⟨rfl, rfl, rfl, rfl, rfl, rfl, rfl⟩⟩
  | circf cx cy r color =>
    exact ⟨_, rfl, by rw [circleFilled, plotAll_frame]; exact ⟨rfl, rfl, rfl, rfl, rfl, rfl, rfl⟩⟩

/-- The latches hold exactly the fields the decoder reads (R29, R85). -/
theorem decode_latched (w : CommandWord) (s : State) : (s.accept w).latches.decode w.rsv = decode w := rfl

/-- Everything a step that answers a next state can have done. -/
theorem step_cases {s t : State} (h : step s = .next t) :
    s.cfg.wellFormed = true ∧
      ((s.resetIn = true ∧ t = s.heldInReset) ∨
        (s.resetIn = false ∧ s.busy = false ∧
          ((s.program[s.pc]? = none ∧ t = s) ∨
            ∃ w, s.program[s.pc]? = some w ∧
              ((∃ why, decode w = .illegal why ∧ t = s.skipIllegal) ∨
                ∃ i, decode w = .operation i ∧ exec i (s.accept w) = .next t)))) := by
  unfold step at h
  split at h
  · cases h
  rename_i hw
  refine ⟨by simpa using hw, ?_⟩
  split at h
  · cases h
    exact .inl ⟨‹_›, rfl⟩
  rename_i hr
  split at h
  · cases h
  rename_i hb
  refine .inr ⟨by simpa using hr, by simpa using hb, ?_⟩
  split at h
  · cases h
    exact .inl ⟨‹_›, rfl⟩
  · rename_i w hp
    refine .inr ⟨w, hp, ?_⟩
    rw [runWord, decode_latched] at h
    split at h
    · exact .inr ⟨_, ‹_›, h⟩
    · cases h
      exact .inl ⟨_, ‹_›, rfl⟩

/-- An idle block runs the word it is presented. -/
theorem step_presented {s : State} {w : CommandWord} (hw : s.cfg.wellFormed = true) (hr : s.resetIn = false)
    (hb : s.busy = false) (hp : s.program[s.pc]? = some w) : step s = runWord w s := by
  simp [step, hw, hr, hb, State.presented, hp]

end Sys2Proof.Machine
end

