-- ==== Sys2Proof/Laws/Display.lean ====
section
/-! SUPPORT. What a list of windows and bursts shows under the law of R51 within the contract of R204, and what driving `RESET`
does. -/

namespace Sys2Proof.Machine

theorem DrawnOnPanel.append {cfg : Config} {panel : Geometry} {a b : List Event} (ha : DrawnOnPanel cfg panel a)
    (hb : DrawnOnPanel cfg panel b) : DrawnOnPanel cfg panel (a ++ b) := by
  induction hb with
  | nothing => rwa [List.append_nil]
  | window _ hp ih =>
    rw [← List.append_assoc]
    exact .window ih hp

/-- A trace of filled windows is a trace of whole frames. -/
theorem DrawnOnPanel.framed {cfg : Config} (hcap : 2 ≤ cfg.burstCap) {panel : Geometry} {a : List Event}
    (ha : DrawnOnPanel cfg panel a) : Framed a := by
  induction ha with
  | nothing => exact Framed.nil
  | window _ _ ih => exact ih.append ((framed_windowEvents ..).append (framed_burstEvents hcap ..))

/-- Events that, after the trace `base` and nothing but filled windows inside the panel, show a colour on exactly the given
pixels if their sends succeed. -/
def Shows (env : Environment) (cfg : Config) (panel : Geometry) (base : List Event) (color : U16) (ev : List Event)
    (pixels : U16 → U16 → Prop) : Prop :=
  DrawnOnPanel cfg panel ev ∧
    ∀ drawn, DrawnOnPanel cfg panel drawn → env.SendsSucceeded (base ++ drawn) (base ++ drawn ++ ev) → ∀ col row : U16,
      (pixels col row → env.image (base ++ drawn ++ ev) col row = color) ∧
        (¬ pixels col row → env.image (base ++ drawn ++ ev) col row = env.image (base ++ drawn) col row)

variable {env : Environment} {cfg : Config} {panel : Geometry} {base : List Event} {color : U16}

theorem Shows.nil : Shows env cfg panel base color [] fun _ _ => False :=
  ⟨.nothing, fun drawn _ _ col row => by simp⟩

theorem Shows.append {a b : List Event} {p q : U16 → U16 → Prop} (h : Shows env cfg panel base color a p)
    (h' : Shows env cfg panel base color b q) : Shows env cfg panel base color (a ++ b) fun c r => p c r ∨ q c r := by
  refine ⟨h.1.append h'.1, fun drawn hd hs col row => ?_⟩
  rw [← List.append_assoc] at hs ⊢
  have h1 := h.2 drawn hd (fun n a1 a2 => hs n a1 (by rw [sendCount_append]; omega)) col row
  have h2 := h'.2 (drawn ++ a) (hd.append h.1)
  simp only [← List.append_assoc] at h2
  have h2 := h2 (fun n a1 a2 => hs n (by rw [sendCount_append] at a1; omega) a2) col row
  constructor
  · intro hpq
    by_cases hq : q col row
    · exact h2.1 hq
    · rw [h2.2 hq, h1.1 (hpq.resolve_right hq)]
  · intro hn
    rw [not_or] at hn
    rw [h2.2 hn.2, h1.2 hn.1]

theorem Shows.congr {ev : List Event} {p q : U16 → U16 → Prop} (h : Shows env cfg panel base color ev p)
    (e : ∀ c r, p c r ↔ q c r) : Shows env cfg panel base color ev q := by
  rwa [show p = q from funext fun c => funext fun r => propext (e c r)] at h

theorem Shows.flatMap {α : Type} {l : List α} {f : α → List Event} {p : α → U16 → U16 → Prop}
    (h : ∀ a ∈ l, Shows env cfg panel base color (f a) (p a)) :
    Shows env cfg panel base color (l.flatMap f) fun c r => ∃ a ∈ l, p a c r := by
  induction l with
  | nil => exact Shows.nil.congr (by simp)
  | cons a l ih =>
    rw [List.flatMap_cons]
    exact ((h a (List.mem_cons_self ..)).append (ih fun b hb => h b (List.mem_cons_of_mem _ hb))).congr (by simp)

/-- The law for one window and its burst. -/
theorem shows_window (hl : env.ImageLaw cfg panel base) (hp : env.Premises cfg) (hb : Framed base) {x1 y1 x2 y2 : U16}
    (color : U16) (h : onPanel panel x1 y1 x2 y2) {n : Nat}
    (hn : n = (x2.toNat - x1.toNat + 1) * (y2.toNat - y1.toNat + 1)) :
    Shows env cfg panel base color (windowEvents cfg x1 y1 x2 y2 ++ burstEvents cfg color n) (inWindow x1 y1 x2 y2) := by
  subst hn
  exact ⟨.window .nothing h, fun drawn hd => hl hp hb drawn x1 y1 x2 y2 color hd h⟩

theorem Shows.paints {ev : List Event} {p : U16 → U16 → Prop} {s t : State} (h : Shows env cfg panel s.trace color ev p)
    (ht : t.trace = s.trace ++ ev) : Paints env p color s t := by
  intro hh
  have h := h.2 [] .nothing
  rw [List.append_nil, ← ht] at h
  exact h hh

/-! ### Driving `RESET` -/

theorem driveReset_assert (s : State) : s.driveReset true = { s with resetIn := true } := rfl

/-- A released `RESET` leaves the reset state, whether or not a step came between. -/
theorem driveReset_release {s : State} (h : s.resetIn = true) : s.driveReset false = State.ofReset s.cfg s.program := by
  simp [State.driveReset, h]

theorem driveReset_idle {s : State} (h : s.resetIn = false) : s.driveReset false = s := by
  simp [State.driveReset, h]

end Sys2Proof.Machine
end

