-- ==== Sys2Proof/Laws/PerInstr.lean ====
section
/-! SUPPORT. Laws stated of every operation as syntax, one lemma per constructor. -/

/-- An encoded operation has `RSV` 0 and the operation's own code in `OP`, one of the thirteen (R82, R83, R85). -/
def Sys2Proof.Laws.EncodedHeader.Statement (i : Sys2Proof.Instr) : Prop :=
  (Sys2Proof.encode i).rsv = 0 ∧ (Sys2Proof.encode i).op = i.opcode ∧ i.opcode ∈ Sys2Proof.assignedCodes

namespace Sys2Proof.Laws.EncodedHeader

theorem wrcmd (byte : Byte) : Statement (.wrcmd byte) := by
  simp [Statement, encode, Instr.opcode]
theorem wrpar (byte : Byte) : Statement (.wrpar byte) := by
  simp [Statement, encode, Instr.opcode]
theorem setwin (x1 y1 x2 y2 : U16) : Statement (.setwin x1 y1 x2 y2) := by
  simp [Statement, encode, Instr.opcode]
theorem setori (mode : U16) : Statement (.setori mode) := by
  simp [Statement, encode, Instr.opcode]
theorem burst (color : U16) (count : U32) : Statement (.burst color count) := by
  simp [Statement, encode, Instr.opcode]
theorem pixel (x y color : U16) : Statement (.pixel x y color) := by
  simp [Statement, encode, Instr.opcode]
theorem rectf (x y w h color : U16) : Statement (.rectf x y w h color) := by
  simp [Statement, encode, Instr.opcode]
theorem hline (x y len color : U16) : Statement (.hline x y len color) := by
  simp [Statement, encode, Instr.opcode]
theorem vline (x y len color : U16) : Statement (.vline x y len color) := by
  simp [Statement, encode, Instr.opcode]
theorem recth (x0 y0 x1 y1 color : U16) : Statement (.recth x0 y0 x1 y1 color) := by
  simp [Statement, encode, Instr.opcode]
theorem rectfc (x0 y0 x1 y1 color : U16) : Statement (.rectfc x0 y0 x1 y1 color) := by
  simp [Statement, encode, Instr.opcode]
theorem circh (cx cy r color : U16) : Statement (.circh cx cy r color) := by
  simp [Statement, encode, Instr.opcode]
theorem circf (cx cy r color : U16) : Statement (.circf cx cy r color) := by
  simp [Statement, encode, Instr.opcode]

end Sys2Proof.Laws.EncodedHeader
end

