-- ==== Sys2Proof/Tests/Slice0.lean ====
section
/-! SUPPORT. Tests of the model against words, vectors and tables of spec/95_test_vectors.md (named in each comment), and one
witness for the hypotheses of every obligation that has any. -/

namespace Sys2Proof.Machine.Tests

/-! ### Well-formedness: one ill-formed term per check -/

/-- The default parameters with a settled geometry. -/
def vertical : Config := { Config.default with resetHorizontal := false }
def horizontal : Config := { Config.default with resetHorizontal := true }

theorem test_wellFormed_default : vertical.wellFormed = true := by decide
theorem test_wellFormed_smallest_capacity : ({ vertical with burstCap := 2 } : Config).wellFormed = true := by decide
theorem test_illFormed_capacity_zero : ({ vertical with burstCap := 0 } : Config).wellFormed = false := by decide
theorem test_illFormed_capacity_odd : ({ vertical with burstCap := 1023 } : Config).wellFormed = false := by decide
theorem test_wellFormed_line : AsmLine.wellFormed ⟨.SETORI, [65535]⟩ = true := by decide
theorem test_illFormed_line_operand : AsmLine.wellFormed ⟨.SETORI, [65536]⟩ = false := by decide
theorem test_illFormed_line_byte : AsmLine.wellFormed ⟨.WRPAR, [256]⟩ = false := by decide
theorem test_illFormed_line_arity : AsmLine.wellFormed ⟨.PIXEL, [1, 2]⟩ = false := by decide
theorem test_illFormed_memory_order : Memory.wf [(3, 1), (2, 1)] = false := by decide
theorem test_illFormed_memory_unlisted : Memory.wf [(3, 0)] = false := by decide

/-! ### Decoding and encoding: E1 to E15 and the words of part 2 -/

/-- E1, E2: the ignored fields of PIXEL. -/
theorem test_decode_pixel :
    decode 0x10000005000700000000F800 = .operation (.pixel 5 7 0xF800) ∧
      decode 0x10000005000711112222F800 = .operation (.pixel 5 7 0xF800) := by decide
/-- E3 to E6. -/
theorem test_decode_illegal :
    decode 0x100100050007000000001234 = .illegal (.reservedField 1) ∧
      decode 0x000000000000000000000000 = .illegal (.unassignedOperation 0) ∧
      decode 0x060000000000000000000000 = .illegal (.unassignedOperation 6) ∧
      decode 0x180000000000000000000000 = .illegal (.unassignedOperation 0x18) := by decide
/-- E7, M6. -/
theorem test_decode_bytes :
    decode 0x0100AB290000000000000000 = .operation (.wrcmd 0x29) ∧
      decode 0x020000FF0000000000000000 = .operation (.wrpar 0xFF) := by decide
/-- E8, E14. -/
theorem test_decode_framer :
    decode 0x040001000000000000000000 = .operation (.setori 256) ∧
      decode 0x0300123456789ABCDEF00000 = .operation (.setwin 0x1234 0x5678 0x9ABC 0xDEF0) := by decide
/-- E9, E10. -/
theorem test_decode_burst :
    decode 0x05000000000000012C00F81F = .operation (.burst 0xF81F 76800) ∧
      decode 0x0500FFFFFFFF00000001ABCD = .operation (.burst 0xABCD 1) := by decide
/-- F13, E11, E12, E13. -/
theorem test_decode_lines :
    decode 0x1100013E00EE000A000A07E0 = .operation (.rectf 318 238 10 10 0x07E0) ∧
      decode 0x120000E6000500320000FFFF = .operation (.hline 230 5 50 0xFFFF) ∧
      decode 0x13000000013E00000005001F = .operation (.vline 0 318 5 0x001F) ∧
      decode 0x13000000013E00070005001F = .operation (.vline 0 318 5 0x001F) := by decide
/-- H1, K1, Q7, E15. -/
theorem test_decode_shapes :
    decode 0x140000050005000A0014FFFF = .operation (.recth 5 5 10 20 0xFFFF) ∧
      decode 0x1500000A00140005000507E0 = .operation (.rectfc 10 20 5 5 0x07E0) ∧
      decode 0x160000EF013F000300000001 = .operation (.circh 239 319 3 1) ∧
      decode 0x17000064006400010000001F = .operation (.circf 100 100 1 0x001F) := by decide
/-- "Encoding each decoded operation with ignored fields zero gives back" (after E15). -/
theorem test_encode :
    encode (.wrcmd 0x29) = 0x010000290000000000000000 ∧ encode (.burst 0xABCD 1) = 0x05000000000000000001ABCD ∧
      encode (.vline 0 318 5 0x001F) = 0x13000000013E00000005001F ∧
      encode (.hline 230 5 50 0xFFFF) = 0x120000E6000500320000FFFF := by decide
/-- S7 as text (R90), with a comment; an operand out of range is an error. -/
theorem test_assemble_text :
    assembleText "RECTF 238, 0, 10, 10, 0x07E0 ; clamps".toList = some 0x110000EE0000000A000A07E0 ∧
      assembleText "SETORI 65536".toList = none ∧ assembleText "PIXEL 5, 7".toList = none := by decide
/-- The host's numbering of a word is the word (R80). -/
theorem test_tableWord : decodeTableWord 96 0x160000640064000300000001 = some (.circh 100 100 3 1) := by decide

/-! ### One step: the vectors of part 2 -/

/-- An idle block with one word presented, in a geometry. -/
def presented (cfg : Config) (w : CommandWord) : State := State.ofReset cfg [w]

/-- What one step shows: the appended events, `GEOM`, `DC` and `pc`. -/
def shown (cfg : Config) (w : CommandWord) : Option (List Event × Geometry × DataCommand × Nat) :=
  match step (presented cfg w) with
  | .next t => some (t.trace, t.geom, t.dc, t.pc)
  | .fault _ => none
  | .refused _ => none

/-- What one step appends, as numbers of events and bytes. -/
def sizes (cfg : Config) (w : CommandWord) : Option (Nat × Nat) := (shown cfg w).map fun p => (p.1.length, byteCount p.1)

/-- Command and parameter frames written out (R86). -/
abbrev C (b : Byte) : List Event := [.sel, .modeCmd, .send [b], .desel]
abbrev P (b : Byte) : List Event := [.sel, .modeData, .send [b], .desel]
abbrev pair (b c : Byte) : List Event := [.sel, .modeData, .send [b, c], .desel]

/-- M4: `GEOM` untouched although 0x36 is `OPC_MADCTL`. -/
theorem test_wrcmd : shown vertical 0x010000360000000000000000 = some (C 0x36, ⟨240, 320⟩, .command, 1) := by decide
/-- M6. -/
theorem test_wrpar : shown horizontal 0x020000FF0000000000000000 = some (P 0xFF, ⟨320, 240⟩, .data, 1) := by decide
/-- N3. -/
theorem test_setwin :
    shown vertical 0x0300123456789ABCDEF00000 =
      some (C 0x2A ++ P 0x12 ++ P 0x34 ++ P 0x9A ++ P 0xBC ++ C 0x2B ++ P 0x56 ++ P 0x78 ++ P 0xDE ++ P 0xF0 ++ C 0x2C,
        ⟨240, 320⟩, .command, 1) := by decide
/-- O4. -/
theorem test_setori_valid :
    shown vertical 0x040000030000000000000000 = some (C 0x36 ++ P 0xE8, ⟨320, 240⟩, .data, 1) := by decide
/-- O7. -/
theorem test_setori_invalid :
    shown horizontal 0x040000040000000000000000 = some ([], ⟨320, 240⟩, .command, 1) := by decide
/-- B12: capacity 4, three pixels. -/
theorem test_burst_blocks :
    shown { vertical with burstCap := 4 } 0x05000000000000000003ABCD =
      some ([.sel, .modeData, .send [0xAB, 0xCD, 0xAB, 0xCD], .send [0xAB, 0xCD], .desel], ⟨240, 320⟩, .data, 1) := by
  decide
/-- B9: no wrap of `totalBytes` at 32 bits. -/
theorem test_burst_arithmetic :
    burstArithmetic 1024 4294967295 = ⟨8589934590, 1024, 8388607, 1022, 0⟩ := by decide
/-- X10 in state `V`. -/
theorem test_pixel_drawn :
    shown vertical 0x10000005012C000000001234 =
      some (C 0x2A ++ P 0 ++ P 5 ++ P 0 ++ P 5 ++ C 0x2B ++ P 1 ++ P 0x2C ++ P 1 ++ P 0x2C ++ C 0x2C ++ pair 0x12 0x34,
        ⟨240, 320⟩, .data, 1) := by decide
/-- X3 in state `V`: the first column off the panel. -/
theorem test_pixel_clipped : shown vertical 0x100000F00000000000001234 = some ([], ⟨240, 320⟩, .command, 1) := by decide
/-- P2, word 1 (F13): clamped to 2 by 2. -/
theorem test_rectf_clamped :
    shown horizontal 0x1100013E00EE000A000A07E0 =
      some (C 0x2A ++ P 1 ++ P 0x3E ++ P 1 ++ P 0x3F ++ C 0x2B ++ P 0 ++ P 0xEE ++ P 0 ++ P 0xEF ++ C 0x2C ++
        [.sel, .modeData, .send [0x07, 0xE0, 0x07, 0xE0, 0x07, 0xE0, 0x07, 0xE0], .desel], ⟨320, 240⟩, .data, 1) := by
  decide +kernel
/-- P6, word 6: zero extent. -/
theorem test_rectf_zero : shown horizontal 0x110000000000000000000000 = some ([], ⟨320, 240⟩, .command, 1) := by decide
/-- L1. -/
theorem test_hline : sizes vertical 0x120000E6000500320000FFFF = some (48, 31) := by decide +kernel
/-- L10. -/
theorem test_vline :
    shown vertical 0x13000000013E00000005001F =
      some (C 0x2A ++ P 0 ++ P 0 ++ P 0 ++ P 0 ++ C 0x2B ++ P 1 ++ P 0x3E ++ P 1 ++ P 0x3F ++ C 0x2C ++
        [.sel, .modeData, .send [0x00, 0x1F, 0x00, 0x1F], .desel], ⟨240, 320⟩, .data, 1) := by decide +kernel
/-- H3: reversed corners, as H1. -/
theorem test_recth : sizes vertical 0x1400000A000500050014FFFF = some (240, 137) := by decide +kernel
/-- H5: the degenerate outline, left, right and far corner. -/
theorem test_recth_degenerate : sizes vertical 0x1400000700070007000A0001 = some (144, 47) := by decide +kernel
/-- K1. -/
theorem test_rectfc : sizes vertical 0x1500000A00140005000507E0 = some (48, 161) := by decide +kernel
/-- K3. -/
theorem test_rectfc_degenerate : sizes vertical 0x150000050005000500140001 = some (0, 0) := by decide
/-- Q5: circle points off the panel by wrap-around. -/
theorem test_circh : sizes vertical 0x16000000000000020000F800 = some (288, 78) := by decide +kernel
/-- `HollowOffsets(3)` in full. -/
theorem test_hollowOffsets :
    hollowOffsets 3 =
      [(2, 0), (0, 2), (0, 2), (-2, 0), (-2, 0), (0, -2), (0, -2), (2, 0),
        (2, 1), (1, 2), (-1, 2), (-2, 1), (-2, -1), (-1, -2), (1, -2), (2, -1),
        (2, 2), (2, 2), (-2, 2), (-2, 2), (-2, -2), (-2, -2), (2, -2), (2, -2)] := by decide
/-- Q18: only the column before the centre lies on the panel. -/
theorem test_circf : sizes vertical 0x170000F00000000100000001 = some (192, 52) := by decide +kernel
/-- `FilledOffsets(1)` in full. -/
theorem test_filledOffsets :
    filledOffsets 1 =
      [(-1, 0), (-1, 0), (0, 0), (0, 0), (1, 0), (1, 0), (0, 1), (0, -1),
        (-1, 1), (-1, -1), (0, 1), (0, -1), (1, 1), (1, -1), (-1, 1), (-1, -1), (0, 1), (0, -1), (1, 1), (1, -1)] := by
  decide
/-- "Trace of the variables for `r = 2`" of the filled circle: the values after the loop. -/
theorem test_filledEnd : filledEnd 3 (filledStart 2) = ⟨1, 2, -1, 4, -1⟩ := by decide
/-- "Trace of `err`, `dx`, `dy` for `r = 3`": the values after the loop. -/
theorem test_hollowEnd : hollowEnd 3 3 (hollowStart 3) = ⟨1, 3, 3, 7, 1⟩ := by decide
/-- P6, words 1 and 2: ILLEGAL words only advance `pc`. -/
theorem test_illegal :
    step (presented vertical 0x100100050007000000001234) =
      .next { presented vertical 0x100100050007000000001234 with pc := 1 } := by rfl

/-- Whether a step answers a next state. -/
def runs (s : State) : Bool :=
  match step s with
  | .next _ => true
  | .fault _ => false
  | .refused _ => false

/-- Every row's `match` word of the operation table runs as the first word after reset. -/
theorem test_every_row_runs_after_reset :
    ([0x010000000000000000000000, 0x020000000000000000000000, 0x030000000000000000000000, 0x040000000000000000000000,
      0x050000000000000000000000, 0x100000000000000000000000, 0x110000000000000000000000, 0x120000000000000000000000,
      0x130000000000000000000000, 0x140000000000000000000000, 0x150000000000000000000000, 0x160000000000000000000000,
      0x170000000000000000000000] : List Nat).all (fun w => runs (State.reset.withFetchWord 96 w)) = true := by decide

/-! ### Witnesses: a state and operands that meet the hypotheses of each obligation -/

/-- An idle block, `V`, with `RECTF 238, 0, 10, 10, 0x07E0` presented (S7). -/
def idle : State := presented vertical 0x110000EE0000000A000A07E0
/-- The same with a listed buffer cell and other working values. -/
def used : State := { idle with bb := [(3, 7)], burstWork := ⟨2, 2, 1, 0, 1⟩, pointWork := ⟨9, 9⟩ }
/-- The same in state `H`. -/
def wide : State := { idle with geom := ⟨320, 240⟩ }

theorem idle_inv : idle.Inv :=
  ⟨by decide, .inl rfl, rfl, rfl, rfl, (fun _ h => by cases h), rfl, rfl, by decide⟩

theorem witness_ResetStateSatisfiesInvariant : vertical.wellFormed = true := by decide

theorem witness_EveryStepKeepsInvariant : idle.Inv ∧ ∃ t, step idle = .next t ∧ t.pc = 1 :=
  ⟨idle_inv, _, rfl, rfl⟩

theorem witness_GeometryIsAlwaysOneOfTwoPairs :
    vertical.wellFormed = true ∧ (idle.geom = ⟨240, 320⟩ ∨ idle.geom = ⟨320, 240⟩) ∧ ∃ t, step idle = .next t :=
  ⟨by decide, .inl rfl, _, rfl⟩

theorem witness_StepRunsTheDecodedInstruction :
    idle.cfg.wellFormed = true ∧ idle.resetIn = false ∧ idle.busy = false ∧
      idle.program[idle.pc]? = some 0x110000EE0000000A000A07E0 ∧
      decode 0x110000EE0000000A000A07E0 = .operation (.rectf 238 0 10 10 0x07E0) := by decide

/-- One state for each of the four clauses. -/
theorem witness_StepsThatAcceptNoWord :
    ({ idle with cfg := { vertical with burstCap := 3 } } : State).cfg.wellFormed = false ∧
      ((idle.driveReset true).cfg.wellFormed = true ∧ (idle.driveReset true).resetIn = true) ∧
      ((idle.setBusy true).cfg.wellFormed = true ∧ (idle.setBusy true).resetIn = false ∧ (idle.setBusy true).busy = true) ∧
      (State.reset.cfg.wellFormed = true ∧ State.reset.resetIn = false ∧ State.reset.busy = false ∧
        State.reset.program.length ≤ State.reset.pc) := by decide

theorem witness_IllegalWordsOnlyAdvancePc :
    let s := presented vertical 0x180000000000000000000000
    s.cfg.wellFormed = true ∧ s.resetIn = false ∧ s.busy = false ∧
      s.program[s.pc]? = some 0x180000000000000000000000 ∧
      decode 0x180000000000000000000000 = .illegal (.unassignedOperation 0x18) := by decide

theorem witness_PlacedWordRunsNext :
    idle.cfg.wellFormed = true ∧ 96 ≤ 96 ∧
      decodeTableWord 96 0x040000030000000000000000 = some (.setori 3) := by decide

theorem witness_EveryProgramRunsToItsEnd : vertical.wellFormed = true := by decide

theorem witness_EveryOperationCompletes : used.cfg.wellFormed = true ∧ used.bb.wf = true ∧ used.cs = .deasserted := by
  decide

theorem witness_ParametersAreFixedForARun :
    (∃ t, step idle = .next t) ∧
      ({ idle with cfg := { vertical with burstCap := 3 } } : State).cfg.burstCap % 2 = 1 ∧
      ({ idle with cfg := { vertical with burstCap := 0 } } : State).cfg.burstCap < 2 :=
  ⟨⟨_, rfl⟩, by decide, by decide⟩

/-- O4. -/
theorem witness_OnlySetoriWritesGeometry :
    let s := presented vertical 0x040000030000000000000000
    s.resetIn = false ∧ ∃ t, step s = .next t ∧ t.geom ≠ s.geom :=
  ⟨rfl, _, rfl, by decide⟩

/-- A WRCMD, a WRPAR and an operation that emits nothing. -/
theorem witness_OutputRegistersAfterAnOperation :
    used.cfg.wellFormed = true ∧ used.bb.wf = true ∧
      (∃ t, exec (.wrcmd 0) used = .next t ∧ t.trace ≠ used.trace) ∧
      (∃ t, exec (.wrpar 0) used = .next t ∧ t.trace ≠ used.trace) ∧
      ∃ t, exec (.setori 4) used = .next t ∧ t.trace = used.trace :=
  ⟨by decide, by decide, ⟨_, rfl, by decide⟩, ⟨_, rfl, by decide⟩, _, rfl, by decide⟩

/-- Two states that differ in the dead state only. -/
theorem witness_DeadStateNeverMatters :
    idle.SameLive used ∧ idle ≠ used ∧ idle.bb.wf = true ∧ used.bb.wf = true ∧ ∃ t, step idle = .next t :=
  ⟨⟨rfl, rfl, rfl, rfl, rfl, rfl, rfl, rfl, rfl⟩, by decide, by decide, by decide, _, rfl⟩

theorem witness_FramerAndBurstDoNotReadGeometry :
    readsGeometry (.setwin 5 7 5 7) = false ∧ (∃ t, exec (.setwin 5 7 5 7) idle = .next t) ∧
      readsGeometry (.setori 1) = false ∧ ∃ t, exec (.setori 1) idle = .next t :=
  ⟨rfl, ⟨_, rfl⟩, rfl, _, rfl⟩

/-- P1, and P2 whose SETORI 7 settles nothing. -/
theorem witness_OrientedProgramsAreDetermined :
    vertical.wellFormed = true ∧
      orientsFirst [0x040000000000000000000000, 0x10000005000700000000F800] = true ∧
      orientsFirst [0x040000070000000000000000, 0x10000005000700000000F800] = false := by decide

theorem witness_EncodeOfDecodeClearsOnlyIgnoredFields :
    decode 0x10000005000711112222F800 = .operation (.pixel 5 7 0xF800) := by decide

theorem witness_AssemblerNeverTruncates :
    AsmLine.wellFormed ⟨.SETORI, [65536]⟩ = false ∧ AsmLine.wellFormed ⟨.SETORI, [65535]⟩ = true := by decide

/-- The first mode out of range. -/
theorem witness_SetoriFollowsTheModeTable : (3 : U16) < 4 := by decide

theorem witness_FramerTraceSizes : (3 : U16) ≤ 3 := by decide

theorem witness_WindowEqualsElevenSingleByteOperations : (3 : U16) ≤ 3 := by decide

theorem witness_BurstSendsTheColorInBlocks :
    used.cfg.wellFormed = true ∧ used.bb.wf = true ∧ (1 : U32) ≠ 0 := by decide

/-- Both sides of the capacity (B4, B5), and the largest rectangle. -/
theorem witness_BurstArithmeticIsExact :
    vertical.wellFormed = true ∧ 2 * 512 ≤ vertical.burstCap ∧ vertical.burstCap < 2 * 513 ∧
      (⟨240, 320⟩ : Geometry).Legal ∧ offPanel ⟨240, 320⟩ 0 0 = false := by decide

/-- B12: a send of the full capacity and a shorter one. -/
theorem witness_BurstWireViewDoesNotDependOnCapacity :
    let cfg : Config := { vertical with burstCap := 4 }
    cfg.wellFormed = true ∧ Event.send [0xAB, 0xCD, 0xAB, 0xCD] ∈ burstEvents cfg 0xABCD 3 ∧
      Event.send [0xAB, 0xCD] ∈ burstEvents cfg 0xABCD 3 := by decide

/-- The last pixel of the panel, and the first ones off it. -/
theorem witness_PixelDrawsOneClippedPixel :
    (used.geom.width ≤ 240 ∨ used.geom.height ≤ 0) ∧ (used.geom.width ≤ 0 ∨ used.geom.height ≤ 320) ∧
      used.cfg.wellFormed = true ∧ used.bb.wf = true ∧ 239 < used.geom.width ∧ 319 < used.geom.height := by decide

/-- An origin off the panel; the last pixel with extent 0 and with extent 1. -/
theorem witness_RectfFillsTheClampedRectangle :
    used.geom.width ≤ 240 ∧ 239 < used.geom.width ∧ 319 < used.geom.height ∧
      min (0 : U16).toNat (used.geom.width.toNat - (239 : U16).toNat) = 0 ∧
      0 < min (65535 : U16).toNat (used.geom.width.toNat - (239 : U16).toNat) ∧
      0 < min (1 : U16).toNat (used.geom.height.toNat - (319 : U16).toNat) ∧
      used.cfg.wellFormed = true ∧ used.bb.wf = true := by decide

theorem witness_HlineFillsTheClampedRow :
    used.geom.height ≤ 320 ∧ 239 < used.geom.width ∧ 319 < used.geom.height ∧ (0 : U16) = 0 ∧ (65535 : U16) ≠ 0 ∧
      used.cfg.wellFormed = true ∧ used.bb.wf = true := by decide

theorem witness_VlineFillsTheClampedColumn :
    used.geom.width ≤ 240 ∧ 239 < used.geom.width ∧ 319 < used.geom.height ∧ (0 : U16) = 0 ∧ (65535 : U16) ≠ 0 ∧
      used.cfg.wellFormed = true ∧ used.bb.wf = true := by decide

theorem witness_RecthDrawsFiveParts : used.cfg.wellFormed = true ∧ used.bb.wf = true := by decide

/-- K3: nothing; K2: a rectangle; corners off the panel. -/
theorem witness_RectfcFillsBetweenTheCorners :
    min (min (5 : U16).toNat (5 : U16).toNat) (used.geom.width.toNat - 5) = 5 ∧
      min (max (5 : U16).toNat (5 : U16).toNat - min (5 : U16).toNat (5 : U16).toNat) (used.geom.width.toNat - 5) = 0 ∧
      0 < min (max (5 : U16).toNat (10 : U16).toNat - min (5 : U16).toNat (10 : U16).toNat) (used.geom.width.toNat - 5) ∧
      0 < min (max (5 : U16).toNat (20 : U16).toNat - min (5 : U16).toNat (20 : U16).toNat) (used.geom.height.toNat - 5) ∧
      used.geom.width.toNat ≤ min (240 : U16).toNat (300 : U16).toNat ∧
      used.cfg.wellFormed = true ∧ used.bb.wf = true := by decide

theorem witness_DrawingStaysOnThePanel :
    readsGeometry (.circf 239 319 5 1) = true ∧ used.cfg.wellFormed = true ∧ used.bb.wf = true ∧ used.geom.Legal := by
  decide

theorem witness_TraceSizesOfEveryOperation :
    used.cfg.wellFormed = true ∧ used.bb.wf = true ∧ (3 : U16) ≤ 3 ∧ (3 : U16) < 4 ∧ (1 : U32) ≠ 0 ∧
      offPanel used.geom 239 319 = false ∧ offPanel used.geom 240 0 = true ∧
      (clamp used.geom.width 238 10).toNat * (clamp used.geom.height 0 10).toNat = 20 := by decide

/-- Its last clause, on an ILLEGAL word. -/
theorem witness_TraceSizesOfEveryOperation_illegal :
    let s := presented vertical 0x180000000000000000000000
    s.cfg.wellFormed = true ∧ s.bb.wf = true ∧ s.resetIn = false ∧ s.busy = false ∧
      s.program[s.pc]? = some 0x180000000000000000000000 ∧
      decode 0x180000000000000000000000 = .illegal (.unassignedOperation 0x18) := by decide

theorem witness_CirclesPlotTheirOffsets : used.cfg.wellFormed = true ∧ used.bb.wf = true := by decide

/-- R160 (b) and R161 (a): a radius of 1 runs one step of the hollow loop, a radius of 0 one of the filled loop. -/
theorem witness_CircleOffsetsAreTheLoopsOfTheRules :
    HollowLoop (1 : Nat) ⟨(1 : Nat) - 1, 0, 1, 1, 1 - 2 * (1 : Nat)⟩
        [(0, 0), (0, 0), (0, 0), (0, 0), (0, 0), (0, 0), (0, 0), (0, 0)] ⟨0, 1, 1, 3, 0⟩ ∧
      FilledLoop ⟨(0 : Nat), 0, 1 - 2 * (0 : Nat), 0, 0⟩ [(0, 0), (0, 0), (0, 0), (0, 0)] ⟨-1, 1, 3, 2, 1⟩ ∧ 1 < 65536 ∧
      (∃ t, exec (.circh 0 0 (.ofNat 16 1) 0) used = .next t) ∧ ∃ t, exec (.circf 0 0 (.ofNat 16 0) 0) used = .next t :=
  ⟨.step (by decide) ⟨1, 0, 3, by decide⟩ (.done (by decide)),
    .step (wide := [(0, 0), (0, 0)]) (narrow := [(0, 0), (0, 0)]) (rest := []) (by decide)
      (.step (by decide) (.done (by decide))) (.step (by decide) (.done (by decide))) (by unfold FilledUpdate; decide) (.done (by decide)),
    by decide, ⟨_, rfl⟩, ⟨_, rfl⟩⟩

theorem witness_HollowCircleIsSymmetricAndBounded : ((2, 1) : Int × Int) ∈ hollowOffsets 3 := by decide

theorem witness_FilledCircleIsSymmetricAndBounded : ((-1, 2) : Int × Int) ∈ filledOffsets 2 := by decide

theorem witness_CircleLoopsEndByTheirOwnTest : 3 ≤ 4 := by decide

theorem filledStart_mem (r : Nat) : filledStart r ∈ filledSteps (r + 1) (filledStart r) := by
  simp [filledSteps, filledStart]

/-- A step of each loop, at a small radius and at the largest. -/
theorem witness_CircleWorkingValuesNeverOverflow :
    (⟨2, 1, 1, 3, -4⟩ : Hollow) ∈ hollowSteps 3 3 (hollowStart 3) ∧
      (⟨2, 1, -3, 2, 0⟩ : Filled) ∈ filledSteps (2 + 1) (filledStart 2) ∧
      filledStart 65535 ∈ filledSteps (65535 + 1) (filledStart 65535) :=
  ⟨by decide, by decide, filledStart_mem 65535⟩

/-- The last centre on the panel and the largest radius, a point on the panel and one off it. -/
theorem witness_NoAliasingForCentresOnThePanel :
    (⟨240, 320⟩ : Geometry).Legal ∧ (239 : U16) < (240 : U16) ∧ (319 : U16) < (320 : U16) ∧ 65216 ≤ 65216 ∧
      ((65216, 0) : Int × Int) ∈ filledOffsets 65216 ∧ ((-2, 0) : Int × Int) ∈ hollowOffsets 3 :=
  ⟨by decide, by decide, by decide, le_rfl,
    mem_filledOffsets.2 ⟨filledStart 65216, filledStart_mem 65216, by simp [mem_spanPair, filledStart]⟩,
    by decide⟩

/-! ### An environment that obeys R51 -/

/-- The bytes of the frame that a trace leaves open. -/
def openBytes : List Byte → List Event → List Byte
  | acc, [] => acc
  | acc, .send bytes :: t => openBytes (acc ++ bytes) t
  | _, .desel :: t => openBytes [] t
  | acc, .sel :: t => openBytes acc t
  | acc, .modeCmd :: t => openBytes acc t
  | acc, .modeData :: t => openBytes acc t

theorem frameView_append (m : DataCommand) (acc : List Byte) (a b : List Event) :
    frameView m acc (a ++ b) = frameView m acc a ++ frameView (modeAfter m a) (openBytes acc a) b := by
  induction a generalizing m acc with
  | nil => rfl
  | cons e a ih => cases e <;> simp [frameView, modeAfter, openBytes, ih]

theorem openBytes_of_afterAll {p : FramePhase} {acc : List Byte} {t : List Event} (hp : p = .idle → acc = [])
    (h : p.afterAll t = some .idle) : openBytes acc t = [] := by
  induction t generalizing p acc with
  | nil =>
    cases h
    exact hp rfl
  | cons e t ih =>
    simp only [FramePhase.afterAll] at h
    split at h
    · rename_i q hq
      cases e <;> cases p <;> simp only [FramePhase.after, Option.some.injEq, reduceCtorEq] at hq
      all_goals first
        | (subst hq; exact ih (by simp) h)
        | (rename_i bytes; cases bytes <;> simp only [Option.some.injEq, reduceCtorEq] at hq
           subst hq; exact ih (by simp) h)
    · cases h

theorem frameView_sends (m : DataCommand) (acc bytes : List Byte) (n : Nat) (t : List Event) :
    frameView m acc (List.replicate n (.send bytes) ++ t) = frameView m (acc ++ (List.replicate n bytes).flatten) t := by
  induction n generalizing acc with
  | zero => simp
  | succ n ih => simp [List.replicate_succ, frameView, ih]

/-- A picture from the frames, newest first: a data frame of at least two bytes right after a window's eleven frames fills it
with the colour of its first two bytes; nothing else shows. -/
def picture (cfg : Config) : List Frame → U16 → U16 → U16
  | [], _, _ => 0
  | f :: older, col, row =>
    match f, older.take 11 with
    | ⟨.data, hi :: lo :: _⟩,
      [⟨.command, [mw]⟩, ⟨.data, [y2l]⟩, ⟨.data, [y2h]⟩, ⟨.data, [y1l]⟩, ⟨.data, [y1h]⟩, ⟨.command, [rw]⟩,
        ⟨.data, [x2l]⟩, ⟨.data, [x2h]⟩, ⟨.data, [x1l]⟩, ⟨.data, [x1h]⟩, ⟨.command, [cl]⟩] =>
      if mw = cfg.opcMemwr ∧ rw = cfg.opcRow ∧ cl = cfg.opcCol ∧
          x1h ++ x1l ≤ col ∧ col ≤ x2h ++ x2l ∧ y1h ++ y1l ≤ row ∧ row ≤ y2h ++ y2l then hi ++ lo
      else picture cfg older col row
    | _, _ => picture cfg older col row

/-- A controller that shows the picture and answers every send with success. -/
def display (cfg : Config) : Environment where
  controllerReady := True
  portExclusive := True
  columnCommand := cfg.opcCol
  rowCommand := cfg.opcRow
  memoryWriteCommand := cfg.opcMemwr
  answer := fun _ => .success
  image := fun t => picture cfg (frameView .command [] t).reverse

theorem hi8_append_lo8 (v : U16) : hi8 v ++ lo8 v = v := by
  unfold hi8 lo8
  rw [BitVec.extractLsb'_append_extractLsb'_eq_extractLsb' (by decide)]
  simp

theorem frameView_burst {cfg : Config} (hcap : 2 ≤ cfg.burstCap) (color : U16) {n : Nat} (hn : 0 < n) (m : DataCommand) :
    ∃ rest, frameView m [] (burstEvents cfg color n) = [⟨.data, hi8 color :: lo8 color :: rest⟩] := by
  obtain ⟨h1, -, -, h4, -⟩ := burstArithmetic_facts hcap hn
  simp only [burstEvents, Nat.pos_iff_ne_zero.1 hn, if_false]
  generalize burstArithmetic cfg.burstCap n = k at *
  obtain ⟨j, hj⟩ : ∃ j, k.fullBlocks = j + 1 := ⟨k.fullBlocks - 1, by omega⟩
  have hp : ∃ rest, pattern color k.bufferSize = hi8 color :: lo8 color :: rest := by
    obtain ⟨b, hb⟩ : ∃ b, k.bufferSize = b + 2 := ⟨k.bufferSize - 2, by omega⟩
    rw [hb, pattern, List.range_succ_eq_map, List.range_succ_eq_map]
    exact ⟨_, rfl⟩
  obtain ⟨rest, hp⟩ := hp
  rw [List.append_assoc, List.append_assoc, List.cons_append, List.cons_append, List.nil_append]
  simp only [frameView]
  rw [frameView_sends, hj, List.replicate_succ, List.flatten_cons, hp]
  split
  · exact ⟨_, rfl⟩
  · exact ⟨_, rfl⟩

/-- Eleven frames of one byte each show nothing of their own. -/
theorem picture_single (cfg : Config) (m : DataCommand) (b : Byte) (l : List Frame) (col row : U16) :
    picture cfg (⟨m, [b]⟩ :: l) col row = picture cfg l col row := by
  simp only [picture]

theorem picture_window (cfg : Config) (hi lo mw y2l y2h y1l y1h rw x2l x2h x1l x1h cl : Byte) (rest : List Byte)
    (l : List Frame) (col row : U16) :
    let window : List Frame :=
      [⟨.command, [mw]⟩, ⟨.data, [y2l]⟩, ⟨.data, [y2h]⟩, ⟨.data, [y1l]⟩, ⟨.data, [y1h]⟩, ⟨.command, [rw]⟩,
        ⟨.data, [x2l]⟩, ⟨.data, [x2h]⟩, ⟨.data, [x1l]⟩, ⟨.data, [x1h]⟩, ⟨.command, [cl]⟩]
    picture cfg (⟨.data, hi :: lo :: rest⟩ :: (window ++ l)) col row =
      if mw = cfg.opcMemwr ∧ rw = cfg.opcRow ∧ cl = cfg.opcCol ∧
          x1h ++ x1l ≤ col ∧ col ≤ x2h ++ x2l ∧ y1h ++ y1l ≤ row ∧ row ≤ y2h ++ y2l then hi ++ lo
      else picture cfg (window ++ l) col row := rfl

theorem display_law (cfg : Config) (panel : Geometry) (base : List Event) (hcap : 2 ≤ cfg.burstCap) :
    (display cfg).ImageLaw cfg panel base := by
  intro _ hb drawn x1 y1 x2 y2 color hd _ t t' _ col row
  have ht : Framed t := hb.append (hd.framed hcap)
  have hn : 0 < (x2.toNat - x1.toNat + 1) * (y2.toNat - y1.toNat + 1) := Nat.mul_pos (by omega) (by omega)
  have he : t' = t ++ (windowEvents cfg x1 y1 x2 y2 ++
      burstEvents cfg color ((x2.toNat - x1.toNat + 1) * (y2.toNat - y1.toNat + 1))) := rfl
  obtain ⟨rest, hr⟩ := frameView_burst hcap color hn .command
  have hv : frameView .command [] t' = frameView .command [] t ++
      ([⟨.command, [cfg.opcCol]⟩, ⟨.data, [hi8 x1]⟩, ⟨.data, [lo8 x1]⟩, ⟨.data, [hi8 x2]⟩, ⟨.data, [lo8 x2]⟩,
        ⟨.command, [cfg.opcRow]⟩, ⟨.data, [hi8 y1]⟩, ⟨.data, [lo8 y1]⟩, ⟨.data, [hi8 y2]⟩, ⟨.data, [lo8 y2]⟩,
        ⟨.command, [cfg.opcMemwr]⟩] ++ [⟨.data, hi8 color :: lo8 color :: rest⟩]) := by
    rw [he, frameView_append, openBytes_of_afterAll (p := .idle) (fun _ => rfl) ht, frameView_append, ← hr]
    rfl
  have hp : (display cfg).image t' col row =
      if x1 ≤ col ∧ col ≤ x2 ∧ y1 ≤ row ∧ row ≤ y2 then color else (display cfg).image t col row := by
    show picture cfg (frameView .command [] t').reverse col row = _
    rw [hv]
    simp only [List.reverse_append, List.reverse_cons, List.reverse_nil, List.nil_append, List.cons_append]
    refine (picture_window ..).trans ?_
    simp only [List.cons_append, List.nil_append]
    simp only [picture_single, hi8_append_lo8, true_and]
    rfl
  rw [hp]
  unfold inWindow
  constructor
  · intro h
    rw [if_pos h]
  · intro h
    rw [if_neg h]

theorem display_premises (cfg : Config) : (display cfg).Premises cfg := ⟨trivial, trivial, rfl, rfl, rfl⟩

/-- All sends of this environment succeed, so that the image law is not empty of cases. -/
theorem witness_PixelAndRectfPaintTheirPixels :
    (display vertical).ImageLaw idle.cfg idle.geom idle.trace ∧ (display vertical).Premises idle.cfg ∧ idle.Inv ∧ 239 < idle.geom.width ∧
      319 < idle.geom.height ∧ ∀ a b, (display vertical).SendsSucceeded a b :=
  ⟨display_law _ _ _ (by decide), display_premises _, idle_inv, by decide, by decide, fun _ _ _ _ _ => rfl⟩

theorem witness_RecthPaintsTheOutline :
    (display vertical).ImageLaw idle.cfg idle.geom idle.trace ∧ (display vertical).Premises idle.cfg ∧ idle.Inv ∧ 0 < idle.geom.width ∧
      239 < idle.geom.width ∧ 0 < idle.geom.height ∧ 319 < idle.geom.height ∧ ((0 : U16) ≠ 239 ∨ (0 : U16) ≠ 319) :=
  ⟨display_law _ _ _ (by decide), display_premises _, idle_inv, by decide, by decide, by decide, by decide, by decide⟩

/-- The largest window on the panel. -/
theorem witness_WindowThenBurstPaintsTheWindow :
    (display vertical).ImageLaw idle.cfg idle.geom idle.trace ∧ (display vertical).Premises idle.cfg ∧ idle.Inv ∧ (0 : U16) ≤ 239 ∧
      239 < idle.geom.width ∧ (0 : U16) ≤ 319 ∧ 319 < idle.geom.height ∧
      (76800 : U32).toNat = ((239 : U16).toNat - (0 : U16).toNat + 1) * ((319 : U16).toNat - (0 : U16).toNat + 1) :=
  ⟨display_law _ _ _ (by decide), display_premises _, idle_inv, by decide, by decide, by decide, by decide, by decide⟩

theorem witness_CirclesPaintTheirPointSets :
    (display vertical).ImageLaw idle.cfg idle.geom idle.trace ∧ (display vertical).Premises idle.cfg ∧ idle.Inv :=
  ⟨display_law _ _ _ (by decide), display_premises _, idle_inv⟩

end Sys2Proof.Machine.Tests
end

section
/-! PROOFS of the statements about the state of the block (10_state.md): what a step with a word, without one and in reset
answers, what it can do to `GEOM`, what an operation leaves in `DC`, and that the live state alone determines all of it. -/

namespace Sys2Proof.Machine

/-! ### What a step answers, arm by arm -/

theorem step_heldInReset {s : State} (hw : s.cfg.wellFormed = true) (hr : s.resetIn = true) :
    step s = .next s.heldInReset := by
  simp [step, hw, hr]

theorem step_notPresented {s : State} (hw : s.cfg.wellFormed = true) (hr : s.resetIn = false) (hb : s.busy = false)
    (hp : s.program[s.pc]? = none) : step s = .next s := by
  simp [step, hw, hr, hb, State.presented, hp]

theorem step_illegal {s : State} {w : CommandWord} {why : Illegal} (hw : s.cfg.wellFormed = true)
    (hr : s.resetIn = false) (hb : s.busy = false) (hp : s.program[s.pc]? = some w) (hd : decode w = .illegal why) :
    step s = .next s.skipIllegal := by
  rw [step_presented hw hr hb hp, runWord, decode_latched, hd]

theorem step_operation {s : State} {w : CommandWord} {i : Instr} (hw : s.cfg.wellFormed = true)
    (hr : s.resetIn = false) (hb : s.busy = false) (hp : s.program[s.pc]? = some w) (hd : decode w = .operation i) :
    step s = exec i (s.accept w) := by
  rw [step_presented hw hr hb hp, runWord, decode_latched, hd]

/-! ### The geometry -/

/-- R21: `GEOM` after an operation is `GEOM` before it, or the pair of a valid SETORI. -/
theorem operationGeometry_cases (g : Geometry) (i : Instr) :
    operationGeometry g i = g ∨ ∃ mode, i = .setori mode ∧ mode ≤ 3 ∧ operationGeometry g i = modeGeometry mode := by
  cases i with
  | setori mode =>
    by_cases h : mode ≤ 3
    · exact .inr ⟨mode, rfl, h, if_pos h⟩
    · exact .inl (if_neg h)
  | _ => exact .inl rfl

/-- The three things a step can leave in `GEOM`: the reset value, what was there, the pair of a valid SETORI (R21, R36). -/
theorem step_geom {s t : State} (h : step s = .next t) :
    (s.resetIn = true ∧ t.geom = s.cfg.resetGeom) ∨ t.geom = s.geom ∨
      ∃ w mode, s.program[s.pc]? = some w ∧ decode w = .operation (.setori mode) ∧ mode ≤ 3 ∧
        t.geom = modeGeometry mode := by
  obtain ⟨-, ⟨hr, rfl⟩ | ⟨-, -, ⟨-, rfl⟩ | ⟨w, hp, ⟨why, -, rfl⟩ | ⟨i, hd, he⟩⟩⟩⟩ := step_cases h
  · exact .inl ⟨hr, rfl⟩
  · exact .inr (.inl rfl)
  · exact .inr (.inl rfl)
  · obtain ⟨u, hu, hg, -⟩ := exec_frame i (s.accept w)
    obtain rfl : u = t := by rw [hu] at he; cases he; rfl
    rw [State.accept_geom] at hg
    rcases operationGeometry_cases s.geom i with hk | ⟨mode, rfl, hm, hk⟩
    · exact .inr (.inl (hg.trans hk))
    · exact .inr (.inr ⟨w, mode, hp, hd, hm, hg.trans hk⟩)

theorem step_geom_legal {s t : State} (hl : s.geom.Legal) (h : step s = .next t) : t.geom.Legal := by
  rcases step_geom h with ⟨-, hg⟩ | hg | ⟨-, mode, -, -, -, hg⟩ <;> rw [hg]
  exacts [Config.resetGeom_legal s.cfg, hl, modeGeometry_legal mode]

/-! ### The mode an operation leaves -/

/-- WRCMD and SETWIN, the operations whose last frame is a command frame (R110, R112). -/
def EndsInCommand (i : Instr) : Prop :=
  (∃ byte, i = .wrcmd byte) ∨ ∃ x1 y1 x2 y2, i = .setwin x1 y1 x2 y2

theorem modeAfter_of_endsInCommand {i : Instr} (h : EndsInCommand i) (cfg : Config) (g : Geometry) (m : DataCommand) :
    modeAfter m (operationEvents cfg g i) = .command := by
  rcases h with ⟨byte, rfl⟩ | ⟨x1, y1, x2, y2, rfl⟩ <;> rfl

theorem leavesData_of_not_endsInCommand {i : Instr} (h : ¬ EndsInCommand i) (cfg : Config) (g : Geometry) :
    LeavesData (operationEvents cfg g i) := by
  cases i with
  | wrcmd byte => exact absurd (.inl ⟨byte, rfl⟩) h
  | setwin x1 y1 x2 y2 => exact absurd (.inr ⟨x1, y1, x2, y2, rfl⟩) h
  | wrpar byte => exact fun _ => rfl
  | setori mode =>
    simp only [operationEvents]
    split
    exacts [fun _ => rfl, LeavesData.nil]
  | burst color count => exact leavesData_burst
  | pixel x y color => exact leavesData_pixel
  | rectf x y w h color => exact leavesData_rect
  | hline x y len color => exact leavesData_rect
  | vline x y len color => exact leavesData_rect
  | recth x0 y0 x1 y1 color => exact leavesData_hollowRect
  | rectfc x0 y0 x1 y1 color => exact leavesData_rect
  | circh cx cy r color => exact LeavesData.flatMap fun _ _ => leavesData_pixel
  | circf cx cy r color => exact LeavesData.flatMap fun _ _ => leavesData_pixel

/-- An operation changes the trace exactly when it has events. -/
theorem Does.trace_eq_iff {i : Instr} {s t : State} (d : Does i s t) :
    t.trace = s.trace ↔ operationEvents s.cfg s.geom i = [] := by
  rw [d.trace, List.append_right_eq_self]

/-! ### The live state -/

/-- What an operation does to the live state, it does from the live state alone. -/
theorem Does.sameLive {i : Instr} {s s' t t' : State} (h : s.SameLive s') (d : Does i s t) (d' : Does i s' t') :
    t.SameLive t' := by
  obtain ⟨hg, hcs, hdc, htr, hpc, -, hp, hr, hc⟩ := h
  exact ⟨by rw [d.geom, d'.geom, hg], by rw [d.cs, d'.cs, hc, hg, hcs], by rw [d.dc, d'.dc, hc, hg, hdc],
    by rw [d.trace, d'.trace, hc, hg, htr], by rw [d.pc, d'.pc, hpc], d.busy.trans d'.busy.symm,
    by rw [d.program, d'.program, hp], by rw [d.resetIn, d'.resetIn, hr], by rw [d.cfg, d'.cfg, hc]⟩

theorem State.SameLive.heldInReset {s s' : State} (h : s.SameLive s') : s.heldInReset.SameLive s'.heldInReset := by
  obtain ⟨-, -, -, -, -, -, hp, -, hc⟩ := h
  rw [State.heldInReset, State.heldInReset, hp, hc]
  exact ⟨rfl, rfl, rfl, rfl, rfl, rfl, rfl, rfl, rfl⟩

theorem State.SameLive.skipIllegal {s s' : State} (h : s.SameLive s') : s.skipIllegal.SameLive s'.skipIllegal := by
  obtain ⟨hg, hcs, hdc, htr, hpc, hb, hp, hr, hc⟩ := h
  exact ⟨hg, hcs, hdc, htr, congrArg (· + 1) hpc, hb, hp, hr, hc⟩

theorem State.SameLive.accept {s s' : State} (h : s.SameLive s') (w : CommandWord) :
    (s.accept w).SameLive (s'.accept w) := by
  obtain ⟨hg, hcs, hdc, htr, hpc, -, hp, hr, hc⟩ := h
  exact ⟨hg, hcs, hdc, htr, hpc, rfl, hp, hr, hc⟩

/-- One operation from two states that agree on the live state. The premises on the buffers are needed: a burst sends what it
reads back, and a write into a list of cells that is not canonical may not be read back. -/
theorem exec_sameLive {i : Instr} {s s' t : State} (h : s.SameLive s') (hw : s.cfg.wellFormed = true)
    (hm : s.bb.wf = true) (hm' : s'.bb.wf = true) (he : exec i s = .next t) :
    ∃ t', exec i s' = .next t' ∧ t.SameLive t' := by
  obtain ⟨-, -, -, -, -, -, -, -, hc⟩ := id h
  obtain ⟨t', he', d'⟩ := exec_does i (hc ▸ hw) hm'
  exact ⟨t', he', (Does.of_exec hw hm he).sameLive h d'⟩

/-! ### The obligations -/

/-- Settles O14: the arm the second step takes is chosen by the live state, and each arm answers a live state from the live
state. -/
theorem deadStateNeverMatters : Obligations.DeadStateNeverMatters := by
  intro s s' t h hm hm' hs
  obtain ⟨-, -, -, -, hpc, hb, hp, hr, hc⟩ := id h
  have hprog : s.program[s.pc]? = s'.program[s'.pc]? := by rw [hp, hpc]
  obtain ⟨hw, hcase⟩ := step_cases hs
  have hw' : s'.cfg.wellFormed = true := hc ▸ hw
  rcases hcase with ⟨hrs, rfl⟩ | ⟨hrs, hbs, hcase⟩
  · exact ⟨_, step_heldInReset hw' (hr ▸ hrs), h.heldInReset⟩
  rcases hcase with ⟨hn, rfl⟩ | ⟨w, hsome, ⟨why, hd, rfl⟩ | ⟨i, hd, he⟩⟩
  · exact ⟨s', step_notPresented hw' (hr ▸ hrs) (hb ▸ hbs) (hprog ▸ hn), h⟩
  · exact ⟨_, step_illegal hw' (hr ▸ hrs) (hb ▸ hbs) (hprog ▸ hsome) hd, h.skipIllegal⟩
  · rw [step_operation hw' (hr ▸ hrs) (hb ▸ hbs) (hprog ▸ hsome) hd]
    exact exec_sameLive (h.accept w) hw hm hm' he

/-- Settles O4: reset leaves one of the two pairs, and so does everything a step can do to `GEOM`. -/
theorem geometryIsAlwaysOneOfTwoPairs : Obligations.GeometryIsAlwaysOneOfTwoPairs :=
  ⟨fun cfg _ _ => Config.resetGeom_legal cfg, fun _ _ hl h => step_geom_legal hl h⟩

/-- Settles O12: of the three things a step can leave in `GEOM`, outside reset only the pair of a valid SETORI differs from what
was there. -/
theorem onlySetoriWritesGeometry : Obligations.OnlySetoriWritesGeometry := by
  intro s t hr h hne
  rcases step_geom h with ⟨hr', -⟩ | hg | ⟨w, mode, hp, hd, hm, -⟩
  · simp [hr] at hr'
  · exact absurd hg hne
  · exact ⟨w, mode, hp, hd, hm⟩

/-- Settles O13: the events of the operation decide both registers. -/
theorem outputRegistersAfterAnOperation : Obligations.OutputRegistersAfterAnOperation := by
  intro i s t hw hm he
  have d := Does.of_exec hw hm he
  refine ⟨fun h => ?_, fun h => ?_⟩
  · have hev := d.trace_eq_iff.1 h
    exact ⟨by rw [d.cs, if_pos hev], by rw [d.dc, hev]; rfl⟩
  · have hev := d.trace_eq_iff.not.1 h
    refine ⟨by rw [d.cs, if_neg hev], fun hi => ?_, fun hi => ?_⟩
    · rw [d.dc, modeAfter_of_endsInCommand hi]
    · rw [d.dc, leavesData_of_not_endsInCommand hi, if_neg hev]

/-- Settles O1: the fixed rows of R36, read off the reset state; the geometry is legal because `RESET_GEOM` is a choice between
the two pairs. -/
theorem resetLeavesTheFixedValues : Obligations.ResetLeavesTheFixedValues :=
  ⟨fun cfg _ => ⟨rfl, Config.resetGeom_legal cfg, rfl, rfl, rfl, rfl⟩, rfl⟩

/-- Settles O5: `accept` is the state the statement writes out. -/
theorem stepRunsTheDecodedInstruction : Obligations.StepRunsTheDecodedInstruction :=
  fun _ _ _ hw hr hb hp hd => step_operation hw hr hb hp hd

end Sys2Proof.Machine
end

section
/-! PROOFS of the statements about the controller's pixel memory (20_memory.md R51): what the events of each drawing procedure
show under the law, and from that what each operation paints. -/

namespace Sys2Proof.Machine

/-! ### The ordered corners (R144) -/

theorem maxU_lt {a b limit : U16} (ha : a < limit) (hb : b < limit) : maxU a b < limit := by
  rw [BitVec.lt_def, maxU_toNat] at *
  omega

theorem minU_add_delta (a b : U16) : (minU a b).toNat + (maxU a b - minU a b).toNat = (maxU a b).toNat := by
  rw [sub_toNat (minU_le_maxU a b), Nat.add_sub_cancel' (minU_le_maxU a b)]

/-! ### What the events of a procedure show -/

section
variable {env : Environment} {cfg : Config} {panel : Geometry} {base : List Event}
variable (hl : env.ImageLaw cfg panel base) (hp : env.Premises cfg) (hb : Framed base)
include hl hp hb

/-- R140: the pixel itself if it lies on the panel, nothing otherwise. -/
theorem shows_pixelEvents (x y color : U16) :
    Shows env cfg panel base color (pixelEvents cfg panel x y color) fun col row =>
      col < panel.width ∧ row < panel.height ∧ col = x ∧ row = y := by
  unfold pixelEvents
  split <;> rename_i h <;> rw [offPanel_iff] at h
  · exact Shows.nil.congr fun col row => iff_of_false id (by bv_omega)
  · have hon : onPanel panel x y x y := by
      unfold onPanel
      bv_omega
    refine (shows_window hl hp hb color hon (by simp)).congr fun col row => ?_
    unfold inWindow
    bv_omega

/-- R141: the clamped rectangle, which has no pixels if an extent is 0. -/
theorem shows_rectEvents {x y : U16} (hx : x < panel.width) (hy : y < panel.height) (w h color : U16) :
    Shows env cfg panel base color (rectEvents cfg panel x y w h color) fun col row =>
      x.toNat ≤ col.toNat ∧ col.toNat < x.toNat + min w.toNat (panel.width.toNat - x.toNat) ∧
        y.toNat ≤ row.toNat ∧ row.toNat < y.toNat + min h.toNat (panel.height.toNat - y.toNat) := by
  have hW := clamp_toNat hx w
  have hH := clamp_toNat hy h
  unfold rectEvents
  generalize clamp panel.width x w = w' at *
  generalize clamp panel.height y h = h' at *
  rw [← hW, ← hH]
  dsimp only
  split <;> rename_i hnone <;> rw [offPanel_iff, eq_zero_iff, eq_zero_iff] at hnone
  · exact Shows.nil.congr fun col row => iff_of_false id (by bv_omega)
  · have hfarX : (x + w' - 1).toNat = x.toNat + w'.toNat - 1 := by bv_omega
    have hfarY : (y + h' - 1).toNat = y.toNat + h'.toNat - 1 := by bv_omega
    have hon : onPanel panel x y (x + w' - 1) (y + h' - 1) := by
      simp only [onPanel, BitVec.le_def, BitVec.lt_def, hfarX, hfarY] at hx hy ⊢
      omega
    have hcount : w'.toNat * h'.toNat =
        ((x + w' - 1).toNat - x.toNat + 1) * ((y + h' - 1).toNat - y.toNat + 1) := by
      rw [hfarX, hfarY]
      congr 1 <;> omega
    refine (shows_window hl hp hb color hon hcount).congr fun col row => ?_
    simp only [inWindow, BitVec.le_def, hfarX, hfarY]
    omega

/-- R141 for a rectangle that lies on the panel whole: the clamp changes nothing. -/
theorem shows_rectEvents_whole {x y w h : U16} (hx : x < panel.width) (hy : y < panel.height)
    (hw : x.toNat + w.toNat ≤ panel.width.toNat) (hh : y.toNat + h.toNat ≤ panel.height.toNat) (color : U16) :
    Shows env cfg panel base color (rectEvents cfg panel x y w h color) fun col row =>
      x.toNat ≤ col.toNat ∧ col.toNat < x.toNat + w.toNat ∧ y.toNat ≤ row.toNat ∧ row.toNat < y.toNat + h.toNat := by
  have key := shows_rectEvents hl hp hb hx hy w h color
  rwa [Nat.min_eq_left (Nat.le_sub_of_add_le' hw), Nat.min_eq_left (Nat.le_sub_of_add_le' hh)] at key

/-- R144: the five parts between two distinct corners on the panel are together the outline. Each of the four sides leaves out its
far end, which the next side or the far corner covers. -/
theorem shows_hollowRectEvents {k : CornerWork} (hdx : k.xa.toNat + k.dx.toNat = k.xb.toNat)
    (hdy : k.ya.toNat + k.dy.toNat = k.yb.toNat) (hxb : k.xb < panel.width) (hyb : k.yb < panel.height)
    (hne : k.dx ≠ 0 ∨ k.dy ≠ 0) (color : U16) :
    Shows env cfg panel base color (hollowRectEvents cfg panel k color) fun col row =>
      k.xa.toNat ≤ col.toNat ∧ col.toNat ≤ k.xb.toNat ∧ k.ya.toNat ≤ row.toNat ∧ row.toNat ≤ k.yb.toNat ∧
        (col.toNat = k.xa.toNat ∨ col.toNat = k.xb.toNat ∨ row.toNat = k.ya.toNat ∨ row.toNat = k.yb.toNat) := by
  have hxa : k.xa < panel.width := by bv_omega
  have hya : k.ya < panel.height := by bv_omega
  have top := shows_rectEvents_whole hl hp hb (w := k.dx) (h := 1) hxa hya (by bv_omega) (by bv_omega) color
  have bottom := shows_rectEvents_whole hl hp hb (w := k.dx) (h := 1) hxa hyb (by bv_omega) (by bv_omega) color
  have left := shows_rectEvents_whole hl hp hb (w := 1) (h := k.dy) hxa hya (by bv_omega) (by bv_omega) color
  have right := shows_rectEvents_whole hl hp hb (w := 1) (h := k.dy) hxb hya (by bv_omega) (by bv_omega) color
  have corner := shows_pixelEvents hl hp hb k.xb k.yb color
  rw [hollowRectEvents, if_pos hne]
  refine ((((top.append bottom).append left).append right).append corner).congr fun col row => ?_
  simp only [ne_eq, eq_zero_iff] at hne
  simp only [BitVec.lt_def, ← BitVec.toNat_inj, show (1 : U16).toNat = 1 from rfl] at hxb hyb ⊢
  omega

/-- R162, R163: the pixels on the panel that some offset reaches modulo 65536. -/
theorem shows_plots (cx cy color : U16) (offsets : List (Int × Int)) :
    Shows env cfg panel base color (offsets.flatMap fun o => plotEvents cfg panel cx cy o color) fun col row =>
      col < panel.width ∧ row < panel.height ∧
        ∃ o ∈ offsets, col = trunc16 (cx.toNat + o.1) ∧ row = trunc16 (cy.toNat + o.2) := by
  refine (Shows.flatMap fun o _ => shows_pixelEvents hl hp hb _ _ color).congr fun col row => ?_
  constructor
  · rintro ⟨o, ho, hcol, hrow, hxy⟩
    exact ⟨hcol, hrow, o, ho, hxy⟩
  · rintro ⟨hcol, hrow, o, ho, hxy⟩
    exact ⟨o, ho, hcol, hrow, hxy⟩

end

/-! ### What an operation paints -/

/-- An operation paints what its events show. -/
theorem exec_paints {env : Environment} {i : Instr} {s : State} {color : U16} {pixels : U16 → U16 → Prop} (hs : s.Inv)
    (h : Shows env s.cfg s.geom s.trace color (operationEvents s.cfg s.geom i) pixels) :
    ∃ t, exec i s = .next t ∧ Paints env pixels color s t := by
  obtain ⟨t, he, d⟩ := exec_does i hs.config hs.canonical
  exact ⟨t, he, h.paints d.trace⟩

/-- Two operations, one after the other: both complete and append their events in order. -/
theorem execAll_pair (i j : Instr) {s : State} (hw : s.cfg.wellFormed = true) (hm : s.bb.wf = true) :
    ∃ t, execAll [i, j] s = .next t ∧
      t.trace = s.trace ++ (operationEvents s.cfg s.geom i ++ operationEvents s.cfg (operationGeometry s.geom i) j) := by
  obtain ⟨u, hu, d⟩ := exec_does i hw hm
  obtain ⟨t, ht, d'⟩ := exec_does j (d.cfg ▸ hw) d.canonical
  refine ⟨t, by simp only [execAll, hu, ht], ?_⟩
  rw [d'.trace, d.trace, d.cfg, d.geom, List.append_assoc]

/-! ### The obligations -/

/-- Settles O47: the events of PIXEL and RECTF show the pixel and the clamped rectangle. -/
theorem pixelAndRectfPaintTheirPixels : Obligations.PixelAndRectfPaintTheirPixels := by
  intro env s hl hp hs
  refine ⟨fun x y color hx hy => ?_, fun x y w h color hx hy => ?_⟩
  · refine exec_paints hs ((shows_pixelEvents hl hp hs.framed x y color).congr fun col row => ?_)
    bv_omega
  · exact exec_paints hs (shows_rectEvents hl hp hs.framed hx hy w h color)

/-- Settles O48: the deltas of the ordered corners span the sides, so the five parts of RECTH show the outline. -/
theorem recthPaintsTheOutline : Obligations.RecthPaintsTheOutline := by
  intro env s x0 y0 x1 y1 color hl hp hs hx0 hx1 hy0 hy1 hne
  have hne' : (corners x0 y0 x1 y1).dx ≠ 0 ∨ (corners x0 y0 x1 y1).dy ≠ 0 := by
    simpa only [corners, ne_eq, delta_eq_zero] using hne
  have outline := shows_hollowRectEvents hl hp hs.framed (minU_add_delta x0 x1) (minU_add_delta y0 y1)
    (maxU_lt hx0 hx1) (maxU_lt hy0 hy1) hne' color
  simp only [corners, minU_toNat, maxU_toNat] at outline
  exact exec_paints hs outline

/-- Settles O49: what a list of plots shows is stated by membership, so order and multiplicity do not enter. -/
theorem circlesPaintTheirPointSets : Obligations.CirclesPaintTheirPointSets := by
  intro env s cx cy r color hl hp hs
  exact ⟨exec_paints hs (shows_plots hl hp hs.framed cx cy color _),
    exec_paints hs (shows_plots hl hp hs.framed cx cy color _)⟩

/-- Settles O50: the events of the two operations are those of one window and its burst. -/
theorem windowThenBurstPaintsTheWindow : Obligations.WindowThenBurstPaintsTheWindow := by
  intro env s x1 y1 x2 y2 color count hl hp hs hx hx2 hy hy2 hn
  obtain ⟨t, he, htrace⟩ := execAll_pair (.setwin x1 y1 x2 y2) (.burst color count) hs.config hs.canonical
  exact ⟨t, he, (shows_window hl hp hs.framed color ⟨hx, hx2, hy, hy2⟩ hn).paints htrace⟩

end Sys2Proof.Machine
end

section
/-! PROOFS of the statements about the command word (30_encoding.md): encoding and decoding are inverse up to the ignored fields,
which words are ILLEGAL, and the assembler line of an operation. -/

namespace Sys2Proof.Machine

/-! ### Decoding by cases -/

/-- R83, R85: a word whose `RSV` is 0 is decoded by its row of the operation table. -/
theorem decode_of_rsv_eq_zero {w : CommandWord} (h : w.rsv = 0) : decode w = decodeFields w.op w.a w.b w.c w.d w.e :=
  if_neg (not_not.2 h)

theorem decode_of_rsv_ne_zero {w : CommandWord} (h : w.rsv ≠ 0) : decode w = .illegal (.reservedField w.rsv) :=
  if_pos h

theorem decode_ofFields_zero (op : Byte) (a b c d e : U16) :
    decode (.ofFields op 0 a b c d e) = decodeFields op a b c d e := by
  rw [decode_ofFields, if_neg (not_not.2 rfl)]

theorem rsv_eq_zero_of_decode {w : CommandWord} {i : Instr} (h : decode w = .operation i) : w.rsv = 0 := by
  by_contra hr
  rw [decode_of_rsv_ne_zero hr] at h
  cases h

theorem assigned_of_decodeFields {op : Byte} {a b c d e : U16} {i : Instr}
    (h : decodeFields op a b c d e = .operation i) : op ∈ assignedCodes := by
  by_contra hop
  rw [decodeFields_of_unassigned hop] at h
  cases h

/-- R83: the words that are ILLEGAL. -/
theorem decode_illegal_iff (w : CommandWord) :
    (∃ why, decode w = .illegal why) ↔ w.rsv ≠ 0 ∨ w.op ∉ assignedCodes := by
  by_cases hr : w.rsv = 0
  · rw [decode_of_rsv_eq_zero hr]
    by_cases hop : w.op ∈ assignedCodes
    · obtain ⟨i, hi⟩ := decodeFields_of_assigned hop w.a w.b w.c w.d w.e
      simp [hi, hr, hop]
    · exact ⟨fun _ => .inr hop, fun _ => ⟨_, decodeFields_of_unassigned hop ..⟩⟩
  · exact ⟨fun _ => .inl hr, fun _ => ⟨_, decode_of_rsv_ne_zero hr⟩⟩

/-! ### Decoding and encoding -/

/-- R85: the row of an operation reads back the fields its encoding wrote. -/
theorem decode_encode (i : Instr) : decode (encode i) = .operation i := by
  cases i with
  | wrcmd byte =>
    have row : decode (encode (.wrcmd byte)) = .operation (.wrcmd (byteOperand (byte.setWidth 16))) :=
      decode_ofFields_zero ..
    rw [row, byteOperand_setWidth]
  | wrpar byte =>
    have row : decode (encode (.wrpar byte)) = .operation (.wrpar (byteOperand (byte.setWidth 16))) :=
      decode_ofFields_zero ..
    rw [row, byteOperand_setWidth]
  | burst color count =>
    have row : decode (encode (.burst color count)) =
        .operation (.burst color (countOperand (count.extractLsb' 16 16) (count.extractLsb' 0 16))) :=
      decode_ofFields_zero ..
    rw [row, countOperand_extract]
  | _ => exact decode_ofFields_zero ..

/-- A mask that keeps `OP` and `RSV` and selects within the operand fields. -/
def rowMask (a b c d e : U16) : CommandWord := .ofFields (.allOnes 8) (.allOnes 8) a b c d e

theorem ofFields_and_rowMask (op rsv : Byte) (a b c d e a' b' c' d' e' : U16) :
    .ofFields op rsv a b c d e &&& rowMask a' b' c' d' e' =
      .ofFields op rsv (a &&& a') (b &&& b') (c &&& c') (d &&& d') (e &&& e') := by
  rw [rowMask, CommandWord.ofFields_and, BitVec.and_allOnes, BitVec.and_allOnes]

/-- The used bits of a row field by field (R81, R82): the fields the row names, of which WRCMD and WRPAR read the low byte. -/
def usedFields : Instr → CommandWord
  | .wrcmd _ | .wrpar _ => rowMask 0x00FF 0 0 0 0
  | .setwin _ _ _ _ => rowMask (.allOnes 16) (.allOnes 16) (.allOnes 16) (.allOnes 16) 0
  | .setori _ => rowMask (.allOnes 16) 0 0 0 0
  | .burst _ _ => rowMask 0 0 (.allOnes 16) (.allOnes 16) (.allOnes 16)
  | .pixel _ _ _ => rowMask (.allOnes 16) (.allOnes 16) 0 0 (.allOnes 16)
  | .vline _ _ _ _ => rowMask (.allOnes 16) (.allOnes 16) 0 (.allOnes 16) (.allOnes 16)
  | .hline _ _ _ _ | .circh _ _ _ _ | .circf _ _ _ _ =>
    rowMask (.allOnes 16) (.allOnes 16) (.allOnes 16) 0 (.allOnes 16)
  | .rectf _ _ _ _ _ | .recth _ _ _ _ _ | .rectfc _ _ _ _ _ =>
    rowMask (.allOnes 16) (.allOnes 16) (.allOnes 16) (.allOnes 16) (.allOnes 16)

theorem usedBits_eq_usedFields (i : Instr) : i.usedBits = usedFields i := by
  cases i <;> simp [Instr.usedBits, usedFields, rowMask, CommandWord.ofFields]

/-- R85: what decoding and encoding again makes of the fields of a word with an assigned code. -/
theorem encode_of_decodeFields {op : Byte} {a b c d e : U16} {i : Instr} (h : decodeFields op a b c d e = .operation i) :
    encode i = .ofFields op 0 a b c d e &&& usedFields i := by
  have hop := assigned_of_decodeFields h
  simp only [List.mem_cons, List.not_mem_nil, or_false] at hop
  rcases hop with rfl | rfl | rfl | rfl | rfl | rfl | rfl | rfl | rfl | rfl | rfl | rfl | rfl <;> cases h <;>
    simp only [encode, usedFields, ofFields_and_rowMask, setWidth_byteOperand, countOperand_hi, countOperand_lo,
      BitVec.and_allOnes, BitVec.ofNat_eq_ofNat, BitVec.and_zero]

theorem encode_of_decode {w : CommandWord} {i : Instr} (h : decode w = .operation i) : encode i = w &&& i.usedBits := by
  have hr := rsv_eq_zero_of_decode h
  rw [decode_of_rsv_eq_zero hr] at h
  rw [encode_of_decodeFields h, usedBits_eq_usedFields, ← hr, CommandWord.ofFields_self]

/-! ### Lines and operations -/

/-- R90: a line is well formed when its operands lie, one by one, in the ranges of the fields of its mnemonic. -/
theorem line_wellFormed_iff (l : AsmLine) :
    l.wellFormed = true ↔ List.Forall₂ (fun n width => n < 2 ^ width) l.operands l.mnemonic.operandWidths := by
  simp [AsmLine.wellFormed, List.forall₂_iff_zip]

/-- An operand of an operation lies in the range of its field. -/
theorem wellFormed_disassemble (i : Instr) : (disassemble i).wellFormed = true := by
  rw [line_wellFormed_iff]
  cases i with
  | wrcmd x | wrpar x | setori x => exact .cons x.isLt .nil
  | burst x y => exact .cons x.isLt (.cons y.isLt .nil)
  | pixel x y z => exact .cons x.isLt (.cons y.isLt (.cons z.isLt .nil))
  | setwin x y z u | hline x y z u | vline x y z u | circh x y z u | circf x y z u =>
    exact .cons x.isLt (.cons y.isLt (.cons z.isLt (.cons u.isLt .nil)))
  | rectf x y z u v | recth x y z u v | rectfc x y z u v =>
    exact .cons x.isLt (.cons y.isLt (.cons z.isLt (.cons u.isLt (.cons v.isLt .nil))))

theorem instruction_disassemble (i : Instr) : AsmLine.instruction (disassemble i) = some i := by
  cases i <;> simp only [disassemble, AsmLine.instruction, BitVec.ofNat_toNat, BitVec.setWidth_eq]

theorem assemble_disassemble (i : Instr) : AsmLine.assemble (disassemble i) = some (encode i) := by
  rw [AsmLine.assemble, if_pos (wellFormed_disassemble i), instruction_disassemble, Option.map_some]

theorem assemble_of_illFormed {l : AsmLine} (h : l.wellFormed = false) : AsmLine.assemble l = none := by
  rw [AsmLine.assemble, if_neg (Bool.not_eq_true _ ▸ h)]

/-- R90: a well-formed line is the line of an operation, whose operands are its numbers, unchanged. -/
theorem exists_disassemble_eq : ∀ {l : AsmLine},
    List.Forall₂ (fun n width => n < 2 ^ width) l.operands l.mnemonic.operandWidths → ∃ i, disassemble i = l
  | ⟨.WRCMD, _⟩, .cons a .nil => ⟨.wrcmd (.ofNatLT _ a), rfl⟩
  | ⟨.WRPAR, _⟩, .cons a .nil => ⟨.wrpar (.ofNatLT _ a), rfl⟩
  | ⟨.SETWIN, _⟩, .cons a (.cons b (.cons c (.cons d .nil))) =>
    ⟨.setwin (.ofNatLT _ a) (.ofNatLT _ b) (.ofNatLT _ c) (.ofNatLT _ d), rfl⟩
  | ⟨.SETORI, _⟩, .cons a .nil => ⟨.setori (.ofNatLT _ a), rfl⟩
  | ⟨.BURST, _⟩, .cons a (.cons b .nil) => ⟨.burst (.ofNatLT _ a) (.ofNatLT _ b), rfl⟩
  | ⟨.PIXEL, _⟩, .cons a (.cons b (.cons c .nil)) => ⟨.pixel (.ofNatLT _ a) (.ofNatLT _ b) (.ofNatLT _ c), rfl⟩
  | ⟨.RECTF, _⟩, .cons a (.cons b (.cons c (.cons d (.cons e .nil)))) =>
    ⟨.rectf (.ofNatLT _ a) (.ofNatLT _ b) (.ofNatLT _ c) (.ofNatLT _ d) (.ofNatLT _ e), rfl⟩
  | ⟨.HLINE, _⟩, .cons a (.cons b (.cons c (.cons d .nil))) =>
    ⟨.hline (.ofNatLT _ a) (.ofNatLT _ b) (.ofNatLT _ c) (.ofNatLT _ d), rfl⟩
  | ⟨.VLINE, _⟩, .cons a (.cons b (.cons c (.cons d .nil))) =>
    ⟨.vline (.ofNatLT _ a) (.ofNatLT _ b) (.ofNatLT _ c) (.ofNatLT _ d), rfl⟩
  | ⟨.RECTH, _⟩, .cons a (.cons b (.cons c (.cons d (.cons e .nil)))) =>
    ⟨.recth (.ofNatLT _ a) (.ofNatLT _ b) (.ofNatLT _ c) (.ofNatLT _ d) (.ofNatLT _ e), rfl⟩
  | ⟨.RECTFC, _⟩, .cons a (.cons b (.cons c (.cons d (.cons e .nil)))) =>
    ⟨.rectfc (.ofNatLT _ a) (.ofNatLT _ b) (.ofNatLT _ c) (.ofNatLT _ d) (.ofNatLT _ e), rfl⟩
  | ⟨.CIRCH, _⟩, .cons a (.cons b (.cons c (.cons d .nil))) =>
    ⟨.circh (.ofNatLT _ a) (.ofNatLT _ b) (.ofNatLT _ c) (.ofNatLT _ d), rfl⟩
  | ⟨.CIRCF, _⟩, .cons a (.cons b (.cons c (.cons d .nil))) =>
    ⟨.circf (.ofNatLT _ a) (.ofNatLT _ b) (.ofNatLT _ c) (.ofNatLT _ d), rfl⟩

/-! ### The obligations -/

/-- Settles O17: every row reads back the fields its encoding wrote. -/
theorem decodeOfEncodeIsTheInstruction : Obligations.DecodeOfEncodeIsTheInstruction :=
  decode_encode

/-- Settles O7: the table has a row for the assigned codes and for no other, and an ILLEGAL word is skipped; of the two
behaviours R83 permits this is the no-op (log 12). -/
theorem illegalWordsOnlyAdvancePc : Obligations.IllegalWordsOnlyAdvancePc :=
  ⟨decode_illegal_iff, fun _ _ _ hw hr hb hp hd => step_illegal hw hr hb hp hd⟩

/-- Settles O18: the encoding of a row keeps the fields the row names and writes 0 in the others. -/
theorem encodeOfDecodeClearsOnlyIgnoredFields : Obligations.EncodeOfDecodeClearsOnlyIgnoredFields :=
  fun _ _ h => encode_of_decode h

/-- Settles O20: the well-formed lines are the lines of the operations, and the others are refused before any operand is cut to
its field. -/
theorem assemblerNeverTruncates : Obligations.AssemblerNeverTruncates := by
  refine ⟨assemble_disassemble, fun _ h => assemble_of_illFormed h, fun l h => ?_⟩
  obtain ⟨i, rfl⟩ := exists_disassemble_eq ((line_wellFormed_iff l).1 h)
  exact ⟨i, assemble_disassemble i, rfl⟩

/-- Settles O19: thirteen fixed words, which the decoder evaluates. -/
theorem writtenWordsDecode : Obligations.WrittenWordsDecode := by
  unfold Obligations.WrittenWordsDecode
  decide

end Sys2Proof.Machine
end

section
/-! PROOFS of the statements about the protocol framer (40_protocol_framer.md): each of its operations as one state, the sizes of
the frames they append, and the window and the orientation write as single-byte operations. -/

namespace Sys2Proof.Machine

/-! ### The operations of the framer, each as one state -/

/-- The state after `n` completed operations whose frames are `events`, the last of them sent in mode `m`. -/
def State.afterFrames (events : List Event) (m : DataCommand) (n : Nat) (s : State) : State :=
  { s with trace := s.trace ++ events, cs := .deasserted, dc := m, pc := s.pc + n, busy := false }

theorem State.afterFrames_afterFrames (ev ev' : List Event) (m m' : DataCommand) (n n' : Nat) (s : State) :
    (s.afterFrames ev m n).afterFrames ev' m' n' = s.afterFrames (ev ++ ev') m' (n + n') := by
  simp only [State.afterFrames, List.append_assoc, Nat.add_assoc]

theorem exec_wrcmd (byte : Byte) (s : State) :
    exec (.wrcmd byte) s = .next (s.afterFrames (commandFrame byte) .command 1) := by
  rw [exec, execWrcmd, cmdFrame_eq]
  rfl

theorem exec_wrpar (byte : Byte) (s : State) :
    exec (.wrpar byte) s = .next (s.afterFrames (parameterFrame byte) .data 1) := by
  rw [exec, execWrpar, parFrame_eq]
  rfl

theorem exec_setwin (x1 y1 x2 y2 : U16) (s : State) :
    exec (.setwin x1 y1 x2 y2) s = .next (s.afterFrames (windowEvents s.cfg x1 y1 x2 y2) .command 1) := by
  rw [exec, execSetwin, window_eq]
  rfl

theorem exec_setori_valid {mode : U16} (h : mode ≤ 3) (s : State) :
    exec (.setori mode) s =
      .next { s.afterFrames (commandFrame s.cfg.opcMadctl ++ parameterFrame (oriByte s.cfg mode)) .data 1 with
        geom := modeGeometry mode } := by
  rw [exec, execSetori, setOrientation_valid h]
  rfl

theorem exec_setori_invalid {mode : U16} (h : ¬ mode ≤ 3) (s : State) :
    exec (.setori mode) s = .next s.onlyAdvanced := by
  rw [exec, execSetori, setOrientation_invalid h]
  rfl

/-! ### The sizes of the frames (R114) -/

section
variable (byte : Byte)
@[simp] theorem length_commandFrame : (commandFrame byte).length = 4 := rfl
@[simp] theorem length_parameterFrame : (parameterFrame byte).length = 4 := rfl
@[simp] theorem byteCount_commandFrame : byteCount (commandFrame byte) = 1 := rfl
@[simp] theorem byteCount_parameterFrame : byteCount (parameterFrame byte) = 1 := rfl
@[simp] theorem count_sel_commandFrame : (commandFrame byte).count .sel = 1 := rfl
@[simp] theorem count_sel_parameterFrame : (parameterFrame byte).count .sel = 1 := rfl
@[simp] theorem count_desel_commandFrame : (commandFrame byte).count .desel = 1 := rfl
@[simp] theorem count_desel_parameterFrame : (parameterFrame byte).count .desel = 1 := rfl
end

section
variable (cfg : Config) (x1 y1 x2 y2 : U16)

theorem count_sel_windowEvents : (windowEvents cfg x1 y1 x2 y2).count .sel = 11 := by
  simp [windowEvents, List.count_append]

theorem count_desel_windowEvents : (windowEvents cfg x1 y1 x2 y2).count .desel = 11 := by
  simp [windowEvents, List.count_append]

/-- Every frame of a window sets the mode itself, so the mode before it does not show. -/
theorem wireView_windowEvents (m : DataCommand) :
    wireView m (windowEvents cfg x1 y1 x2 y2) =
      [(.command, cfg.opcCol), (.data, hi8 x1), (.data, lo8 x1), (.data, hi8 x2), (.data, lo8 x2),
        (.command, cfg.opcRow), (.data, hi8 y1), (.data, lo8 y1), (.data, hi8 y2), (.data, lo8 y2),
        (.command, cfg.opcMemwr)] := rfl

end

theorem appends_setori_valid {mode : U16} (h : mode ≤ 3) (s : State) : Appends (exec (.setori mode) s) s 8 2 :=
  ⟨_, commandFrame s.cfg.opcMadctl ++ parameterFrame (oriByte s.cfg mode), exec_setori_valid h s, rfl,
    by simp, by simp [byteCount_append]⟩

/-! ### Layers (R115) -/

/-- The eleven single-byte operations of a window, in the order of R115. -/
theorem execAll_windowBytes (x1 y1 x2 y2 : U16) (s : State) :
    execAll [.wrcmd s.cfg.opcCol, .wrpar (hi8 x1), .wrpar (lo8 x1), .wrpar (hi8 x2), .wrpar (lo8 x2),
        .wrcmd s.cfg.opcRow, .wrpar (hi8 y1), .wrpar (lo8 y1), .wrpar (hi8 y2), .wrpar (lo8 y2),
        .wrcmd s.cfg.opcMemwr] s =
      .next (s.afterFrames (windowEvents s.cfg x1 y1 x2 y2) .command 11) := by
  simp only [execAll, exec_wrcmd, exec_wrpar, State.afterFrames_afterFrames, windowEvents]

/-- The two single-byte operations of an orientation write. -/
theorem execAll_orientationBytes (mode : U16) (s : State) :
    execAll [.wrcmd s.cfg.opcMadctl, .wrpar (oriByte s.cfg mode)] s =
      .next (s.afterFrames (commandFrame s.cfg.opcMadctl ++ parameterFrame (oriByte s.cfg mode)) .data 2) := by
  simp only [execAll, exec_wrcmd, exec_wrpar, State.afterFrames_afterFrames]

/-! ### The obligations -/

/-- Settles O21: the row of `OP` 0x01, and WRCMD as one state. -/
theorem wrcmdSendsOneCommandFrame : Obligations.WrcmdSendsOneCommandFrame :=
  ⟨fun _ _ _ _ _ => decode_ofFields_zero .., exec_wrcmd⟩

/-- Settles O22: the row of `OP` 0x02, and WRPAR as one state. -/
theorem wrparSendsOneParameterFrame : Obligations.WrparSendsOneParameterFrame :=
  ⟨fun _ _ _ _ _ => decode_ofFields_zero .., exec_wrpar⟩

/-- Settles O23: the row of `OP` 0x03, and SETWIN as one state, whose events are the eleven frames one after another. -/
theorem setwinSendsElevenFrames : Obligations.SetwinSendsElevenFrames :=
  ⟨fun _ _ _ _ _ => decode_ofFields_zero .., exec_setwin⟩

/-- Settles O24: the row of `OP` 0x04, then SETORI with a valid mode at the four rows of the mode table, and with any other. -/
theorem setoriFollowsTheModeTable : Obligations.SetoriFollowsTheModeTable := by
  refine ⟨fun _ _ _ _ _ => decode_ofFields_zero .., fun s => ⟨?_, ?_, ?_, ?_, fun mode h => ?_⟩⟩
  · exact exec_setori_valid (mode := 0) (by decide) s
  · exact exec_setori_valid (mode := 1) (by decide) s
  · exact exec_setori_valid (mode := 2) (by decide) s
  · exact exec_setori_valid (mode := 3) (by decide) s
  · exact exec_setori_invalid (BitVec.not_le.2 h) s

/-- Settles O25: the sizes of a frame, of a window's eleven and of an orientation write's two. -/
theorem framerTraceSizes : Obligations.FramerTraceSizes :=
  ⟨fun byte => ⟨length_commandFrame byte, byteCount_commandFrame byte, count_sel_commandFrame byte,
      count_desel_commandFrame byte⟩,
    fun byte => ⟨length_parameterFrame byte, byteCount_parameterFrame byte, count_sel_parameterFrame byte,
      count_desel_parameterFrame byte⟩,
    fun cfg x1 y1 x2 y2 m => ⟨length_windowEvents .., byteCount_windowEvents .., count_sel_windowEvents cfg x1 y1 x2 y2,
      count_desel_windowEvents cfg x1 y1 x2 y2, wireView_windowEvents cfg x1 y1 x2 y2 m⟩,
    fun s _ h => appends_setori_valid h s⟩

/-- Settles O26: both sides append the same frames and end in the same mode; only the number of operations differs and, for
SETORI, the geometry. -/
theorem windowEqualsElevenSingleByteOperations : Obligations.WindowEqualsElevenSingleByteOperations :=
  fun s => ⟨fun x1 y1 x2 y2 => ⟨_, _, exec_setwin x1 y1 x2 y2 s, execAll_windowBytes x1 y1 x2 y2 s, rfl, rfl⟩,
    fun mode h => ⟨_, _, exec_setori_valid h s, execAll_orientationBytes mode s, rfl, rfl⟩⟩

end Sys2Proof.Machine
end

section
/-! PROOFS of the statements about the burst pipeline (41_burst_pipeline.md): BURST as one state, its arithmetic around `BURST_CAP`,
and its sends as one stream of pixels. -/

namespace Sys2Proof.Machine

/-! ### The arithmetic (R131) -/

/-- R131 (b): a burst that fits the buffer is one send. -/
theorem burstArithmetic_of_fits {cap count : Nat} (hc : 0 < count) (h : 2 * count ≤ cap) :
    burstArithmetic cap count = ⟨2 * count, 2 * count, 1, 0, 0⟩ := by
  simp [burstArithmetic, min_eq_left h, Nat.div_self (show 0 < 2 * count by omega)]

/-- R131 (c): a longer burst is cut into blocks of the whole capacity. -/
theorem burstArithmetic_of_exceeds {cap count : Nat} (h : cap < 2 * count) :
    burstArithmetic cap count = ⟨2 * count, cap, 2 * count / cap, 2 * count % cap, 0⟩ := by
  simp [burstArithmetic, min_eq_right h.le]

theorem clamp_le_limit {limit origin : U16} (h : origin < limit) (extent : U16) :
    (clamp limit origin extent).toNat ≤ limit.toNat := by
  rw [clamp_toNat h]
  omega

theorem width_mul_height_of_legal {g : Geometry} (h : g.Legal) : g.width.toNat * g.height.toNat = 76800 := by
  rcases h with rfl | rfl <;> rfl

/-- R131 (g): a clamped rectangle is no larger than the panel. -/
theorem clamped_pixels_le {g : Geometry} (hg : g.Legal) {x y : U16} (hp : offPanel g x y = false) (w h : U16) :
    (clamp g.width x w).toNat * (clamp g.height y h).toNat ≤ 76800 := by
  obtain ⟨hx, hy⟩ : x < g.width ∧ y < g.height := by simpa [offPanel] using hp
  calc (clamp g.width x w).toNat * (clamp g.height y h).toNat
      ≤ g.width.toNat * g.height.toNat := Nat.mul_le_mul (clamp_le_limit hx w) (clamp_le_limit hy h)
    _ = 76800 := width_mul_height_of_legal hg

/-! ### The sends of a burst as one stream -/

/-- Blocks of even lengths continue the colour stream: none of them splits a pixel (R54, R131 (e)). -/
theorem pattern_blocks (color : U16) (blocks : Nat) {size rest : Nat} (hs : size % 2 = 0) (hr : rest % 2 = 0) :
    (List.replicate blocks (pattern color size)).flatten ++ pattern color rest = pattern color (blocks * size + rest) := by
  obtain ⟨p, rfl⟩ := Nat.dvd_of_mod_eq_zero hs
  obtain ⟨q, rfl⟩ := Nat.dvd_of_mod_eq_zero hr
  rw [show blocks * (2 * p) + 2 * q = 2 * (blocks * p + q) by ring]
  simp only [pattern_two_mul, flatten_replicate_flatten, List.replicate_add, List.flatten_append]

section
variable {cfg : Config} {color : U16} {n : Nat}

theorem burstEvents_of_pos (hn : 0 < n) :
    let k := burstArithmetic cfg.burstCap n
    burstEvents cfg color n =
      [.sel, .modeData] ++ List.replicate k.fullBlocks (.send (pattern color k.bufferSize)) ++
        (if 0 < k.remainder then [.send (pattern color k.remainder)] else []) ++ [.desel] :=
  if_neg (Nat.pos_iff_ne_zero.1 hn)

/-- The sends of a burst in order; a remainder of 0 adds no byte (R132). -/
theorem sentBytes_burstEvents (hw : cfg.wellFormed = true) :
    sentBytes (burstEvents cfg color n) = (List.replicate n [hi8 color, lo8 color]).flatten := by
  rcases Nat.eq_zero_or_pos n with rfl | hn
  · rfl
  · obtain ⟨-, -, -, -, hsum⟩ := burstArithmetic_facts (Config.two_le_burstCap hw) hn
    obtain ⟨hsize, hrest⟩ := burstArithmetic_even (count := n) (Config.burstCap_even hw)
    rw [← pattern_two_mul, ← hsum, ← pattern_blocks color _ hsize hrest, burstEvents_of_pos hn]
    generalize burstArithmetic cfg.burstCap n = k
    simp only [sentBytes_append, sentBytes_replicate]
    split
    · simp [sentBytes]
    · simp [sentBytes, pattern, show k.remainder = 0 by omega]

/-- A burst sets the mode before its first send, so every byte of it goes out as data, whatever mode was in force. -/
theorem wireView_burstEvents (m : DataCommand) :
    wireView m (burstEvents cfg color n) = (sentBytes (burstEvents cfg color n)).map fun b => (.data, b) := by
  rcases Nat.eq_zero_or_pos n with rfl | hn
  · rfl
  · rw [burstEvents_of_pos hn]
    generalize burstArithmetic cfg.burstCap n = k
    simp only [wireView_append, modeAfter_append, modeAfter_replicate, wireView_replicate, sentBytes_append,
      sentBytes_replicate]
    split <;> simp [wireView, modeAfter, sentBytes, List.map_flatten]

/-- Every send is a full buffer or the remainder, which is sent only if it is not empty (R130, R132). -/
theorem length_of_send_mem_burstEvents {bytes : List Byte} (h : .send bytes ∈ burstEvents cfg color n) :
    let k := burstArithmetic cfg.burstCap n
    0 < n ∧ (bytes.length = k.bufferSize ∨ 0 < k.remainder ∧ bytes.length = k.remainder) := by
  rcases Nat.eq_zero_or_pos n with rfl | hn
  · cases h
  · rw [burstEvents_of_pos hn] at h
    refine ⟨hn, ?_⟩
    generalize burstArithmetic cfg.burstCap n = k at *
    split at h
    case isTrue hr =>
      rcases (show _ ∨ _ by simpa using h) with ⟨-, rfl⟩ | rfl
      · exact .inl (length_pattern ..)
      · exact .inr ⟨hr, length_pattern ..⟩
    case isFalse =>
      obtain ⟨-, rfl⟩ : _ ∧ _ := by simpa using h
      exact .inl (length_pattern ..)

/-- R131 (f): a burst is one frame. -/
theorem count_sel_burstEvents (hn : 0 < n) : (burstEvents cfg color n).count .sel = 1 := by
  rw [burstEvents_of_pos hn]
  split <;> simp [List.count_append, List.count_replicate]

theorem count_desel_burstEvents (hn : 0 < n) : (burstEvents cfg color n).count .desel = 1 := by
  rw [burstEvents_of_pos hn]
  split <;> simp [List.count_append, List.count_replicate]

end

/-- R133. -/
theorem exec_burst_zero (color : U16) (s : State) : exec (.burst color 0) s = .next s.onlyAdvanced := by
  rw [exec, execBurst, burst_zero]
  rfl

/-- BURST of at least one pixel as one state (R130). -/
theorem exec_burst {color : U16} {count : U32} (hc : count ≠ 0) {s : State} (hw : s.cfg.wellFormed = true)
    (hm : s.bb.wf = true) :
    let k := burstArithmetic s.cfg.burstCap count.toNat
    exec (.burst color count) s =
      .next { s.afterFrames (burstEvents s.cfg color count.toNat) .data 1 with
        bb := (fillBuffer color k.bufferSize s).bb, burstWork := { k with block := k.fullBlocks } } := by
  intro k
  rw [exec, execBurst, burst_eq hc (Config.two_le_burstCap hw) hm]
  rfl

/-! ### The obligations -/

/-- Settles O28: the row of `OP` 0x05, the burst of no pixels, and any other as one state, whose buffer holds the colour pattern
in the bytes the fill wrote. -/
theorem burstSendsTheColorInBlocks : Obligations.BurstSendsTheColorInBlocks := by
  refine ⟨fun _ _ _ _ _ => decode_ofFields_zero .., exec_burst_zero, fun color count s hw hm hc => ?_⟩
  have trace := burstEvents_of_pos (cfg := s.cfg) (color := color) (toNat_ne_zero hc)
  obtain ⟨-, bytes⟩ := fillBuffer_bb color (burstArithmetic s.cfg.burstCap count.toNat).bufferSize hm
  exact ⟨_, exec_burst hc hw hm, congrArg (s.trace ++ ·) trace, bytes, rfl, rfl, rfl, rfl, rfl⟩

/-- Settles O29: the division of R130 around `BURST_CAP`, the events it gives, and the largest rectangle. -/
theorem burstArithmeticIsExact : Obligations.BurstArithmeticIsExact := by
  refine ⟨fun cfg color count hw hpos => ?_, fun g x y w h hg hp => clamped_pixels_le hg hp w h, by decide⟩
  have hcap := Config.two_le_burstCap hw
  obtain ⟨hsize, -, hrest, hblocks, hsum⟩ := burstArithmetic_facts hcap hpos
  obtain ⟨hsizeEven, hrestEven⟩ := burstArithmetic_even (count := count) (Config.burstCap_even hw)
  refine ⟨hsum, hsize, hrest, fun hfits => ?_, fun hexceeds => ?_, hsizeEven, hrestEven,
    sentBytes_burstEvents hw, length_burstEvents hpos, byteCount_burstEvents hcap color count,
    count_sel_burstEvents hpos, count_desel_burstEvents hpos⟩
  · rw [burstArithmetic_of_fits hpos hfits]
    exact ⟨rfl, rfl, rfl⟩
  · refine ⟨?_, ?_, hblocks, ?_⟩ <;> rw [burstArithmetic_of_exceeds hexceeds]

/-- Settles O30: the wire view is the sends joined, all in data mode, and every send is one of the two even lengths. -/
theorem burstWireViewDoesNotDependOnCapacity : Obligations.BurstWireViewDoesNotDependOnCapacity := by
  intro cfg color count m hw
  refine ⟨?_, fun bytes hsend => ?_⟩
  · rw [wireView_burstEvents, sentBytes_burstEvents hw, List.map_flatten, List.map_replicate]
    rfl
  · obtain ⟨hpos, hlength⟩ := length_of_send_mem_burstEvents hsend
    obtain ⟨hsize, hle, hrest, -⟩ := burstArithmetic_facts (Config.two_le_burstCap hw) hpos
    obtain ⟨hsizeEven, hrestEven⟩ := burstArithmetic_even (count := count) (Config.burstCap_even hw)
    rcases hlength with h | ⟨hr, h⟩
    · rw [h]
      exact ⟨hsizeEven, hsize, hle⟩
    · rw [h]
      exact ⟨hrestEven, by omega, by omega⟩

end Sys2Proof.Machine
end

section
/-! PROOFS of the statements about the pixel, the lines and the rectangles (42_rasterizer_rect_line.md): `Pixel` and `RectF` as
one state, the other operations as uses of them, and the windows that a drawing operation emits. -/

namespace Sys2Proof.Machine

/-! ### PIXEL (R140) -/

theorem offPanel_eq_false {g : Geometry} {x y : U16} (hx : x < g.width) (hy : y < g.height) : offPanel g x y = false := by
  simp [offPanel, hx, hy]

theorem exec_pixel_off {x y color : U16} {s : State} (h : s.geom.width ≤ x ∨ s.geom.height ≤ y) :
    exec (.pixel x y color) s = .next s.onlyAdvanced := by
  rw [exec, execPixel, pixel, if_pos (offPanel_iff.2 h)]
  rfl

/-- The burst of one pixel is one send of two bytes, whatever the capacity (R131 (d)). -/
theorem burstArithmetic_one {cap : Nat} (hcap : 2 ≤ cap) : burstArithmetic cap 1 = ⟨2, 2, 1, 0, 0⟩ :=
  burstArithmetic_of_fits Nat.one_pos hcap

/-- PIXEL on the panel as one state. -/
theorem exec_pixel {x y color : U16} {s : State} (hw : s.cfg.wellFormed = true) (hm : s.bb.wf = true)
    (hx : x < s.geom.width) (hy : y < s.geom.height) :
    exec (.pixel x y color) s =
      .next { s.afterFrames (windowEvents s.cfg x y x y ++ [.sel, .modeData, .send [hi8 color, lo8 color], .desel]) .data 1 with
        bb := (fillBuffer color 2 s).bb, burstWork := ⟨2, 2, 1, 0, 1⟩ } := by
  have hcap := Config.two_le_burstCap hw
  have hburst := burst_window_eq (color := color) (count := 1) (by decide) hcap hm x y x y
  rw [show (1 : U32).toNat = 1 from rfl, burstArithmetic_one hcap, burstEvents_one hcap] at hburst
  rw [exec, execPixel, pixel, offPanel_eq_false hx hy, if_neg Bool.false_ne_true, hburst]
  rfl

/-- The two buffer bytes of one pixel, high byte first (R53, R130). -/
theorem read_fillBuffer_two (color : U16) {s : State} (hm : s.bb.wf = true) (a : Nat) :
    (fillBuffer color 2 s).bb.read a = if a = 0 then hi8 color else if a = 1 then lo8 color else s.bb.read a := by
  rw [(fillBuffer_bb color 2 hm).2]
  match a with
  | 0 => rfl
  | 1 => rfl
  | n + 2 => simp

/-! ### RECTF (R141) -/

theorem exec_rectf_off {x y w h color : U16} {s : State} (h0 : s.geom.width ≤ x ∨ s.geom.height ≤ y) :
    exec (.rectf x y w h color) s = .next s.onlyAdvanced := by
  rw [exec, execRectf, rectF_off h0]
  rfl

/-- The clamped extents of R141 in truncating subtraction are 0 off the panel too: in both cases nothing is drawn. -/
theorem rectF_silent {x y w h color : U16} {s : State}
    (h0 : min w.toNat (s.geom.width.toNat - x.toNat) = 0 ∨ min h.toNat (s.geom.height.toNat - y.toNat) = 0) :
    ∃ k, rectF x y w h color s = { s with clampWork := k } := by
  by_cases hp : s.geom.width ≤ x ∨ s.geom.height ≤ y
  · exact ⟨s.clampWork, rectF_off hp⟩
  · obtain ⟨hx, hy⟩ : x < s.geom.width ∧ y < s.geom.height := by simpa using hp
    exact rectF_zero hx hy (by rwa [eq_zero_iff, eq_zero_iff, clamp_toNat hx, clamp_toNat hy])

theorem rectF_zero_width (x y h color : U16) (s : State) : ∃ k, rectF x y 0 h color s = { s with clampWork := k } :=
  rectF_silent (.inl (Nat.zero_min _))

theorem rectF_zero_height (x y w color : U16) (s : State) : ∃ k, rectF x y w 0 color s = { s with clampWork := k } :=
  rectF_silent (.inr (Nat.zero_min _))

/-- RECTF that draws nothing: beside the end of the operation, only the clamp's working values may change (log 8). -/
theorem exec_rectf_of_silent {x y w h color : U16} {s : State} (h0 : ∃ k, rectF x y w h color s = { s with clampWork := k }) :
    ∃ k, exec (.rectf x y w h color) s = .next { s.onlyAdvanced with clampWork := k } := by
  obtain ⟨k, hk⟩ := h0
  exact ⟨k, by rw [exec, execRectf, hk]; rfl⟩

/-- The far coordinate of a clamped extent does not wrap. -/
theorem far_toNat {limit origin extent : U16} (h : origin < limit) (h0 : clamp limit origin extent ≠ 0) :
    (origin + clamp limit origin extent - 1).toNat = origin.toNat + (clamp limit origin extent).toNat - 1 := by
  have hc := clamp_toNat h extent
  have hpos := toNat_ne_zero h0
  generalize clamp limit origin extent = c at *
  bv_omega

theorem area_eq_ofNat (w h : U16) : area w h = .ofNat 32 (w.toNat * h.toNat) := by
  rw [← area_toNat, BitVec.ofNat_toNat, BitVec.setWidth_eq]

/-- RECTF with its origin on the panel and no clamped extent 0. -/
theorem exec_rectf_fills {x y w h color : U16} {s : State} (hw : s.cfg.wellFormed = true) (hm : s.bb.wf = true)
    (hx : x < s.geom.width) (hy : y < s.geom.height) (hW : 0 < min w.toNat (s.geom.width.toNat - x.toNat))
    (hH : 0 < min h.toNat (s.geom.height.toNat - y.toNat)) :
    ∃ t, exec (.rectf x y w h color) s = .next t ∧
      FillsRectangle x.toNat y.toNat (min w.toNat (s.geom.width.toNat - x.toNat))
        (min h.toNat (s.geom.height.toNat - y.toNat)) color s t := by
  rw [← clamp_toNat hx] at hW ⊢
  rw [← clamp_toNat hy] at hH ⊢
  have hW0 := eq_zero_iff.not.2 hW.ne'
  have hH0 := eq_zero_iff.not.2 hH.ne'
  have hfarX := far_toNat hx hW0
  have hfarY := far_toNat hy hH0
  have heq := rectF_eq (color := color) hw hm hx hy hW0 hH0
  generalize clamp s.geom.width x w = w' at *
  generalize clamp s.geom.height y h = h' at *
  simp only [area_toNat] at heq
  refine ⟨_, by rw [exec, execRectf, heq], ?trace, ?bytes, ?clampWork, rfl⟩
  case trace => rw [← eq_ofNat rfl, ← eq_ofNat rfl, ← eq_ofNat hfarX, ← eq_ofNat hfarY]; rfl
  case bytes => exact (fillBuffer_bb color _ hm).2
  case clampWork => rw [← eq_ofNat rfl, ← eq_ofNat rfl, ← area_eq_ofNat]; rfl

/-! ### The ordered corners (R144, R145) -/

theorem delta_toNat (a b : U16) : (maxU a b - minU a b).toNat = max a.toNat b.toNat - min a.toNat b.toNat := by
  rw [sub_toNat (minU_le_maxU a b), minU_toNat, maxU_toNat]

theorem corners_swap (x0 y0 x1 y1 : U16) : corners x0 y0 x1 y1 = corners x1 y1 x0 y0 :=
  (corners_swap_x x0 y0 x1 y1).trans (corners_swap_y x1 y0 x0 y1)

/-- The far corner is drawn unless both corners are equal. -/
theorem corners_delta_ne_zero (x0 y0 x1 y1 : U16) :
    (corners x0 y0 x1 y1).dx ≠ 0 ∨ (corners x0 y0 x1 y1).dy ≠ 0 ↔ x0 ≠ x1 ∨ y0 ≠ y1 :=
  or_congr (delta_eq_zero x0 x1).not (delta_eq_zero y0 y1).not

/-! Equal coordinates have delta 0: a point has no outline, and equal columns have no interior. -/

theorem corners_dx_self (x y0 y1 : U16) : (corners x y0 x y1).dx = 0 := (delta_eq_zero x x).2 rfl

theorem corners_dy_self (x0 x1 y : U16) : (corners x0 y x1 y).dy = 0 := (delta_eq_zero y y).2 rfl

/-! ### Lines and rectangles from corners, as RECTF (R142, R143, R145) -/

/-! HLINE, VLINE and RECTFC are `RectF` at other operands in the model, so these equations hold by unfolding `exec`. -/

theorem exec_hline (x y len color : U16) (s : State) : exec (.hline x y len color) s = exec (.rectf x y len 1 color) s := rfl

theorem exec_vline (x y len color : U16) (s : State) : exec (.vline x y len color) s = exec (.rectf x y 1 len color) s := rfl

theorem exec_rectfc (x0 y0 x1 y1 color : U16) (s : State) :
    let k := corners x0 y0 x1 y1
    exec (.rectfc x0 y0 x1 y1 color) s = exec (.rectf k.xa k.ya k.dx k.dy color)
      { s with cornerWork := { k with xb := s.cornerWork.xb, yb := s.cornerWork.yb } } := rfl

/-- RECTFC that draws nothing still writes the corner working values it assigns. -/
theorem exec_rectfc_silent {x0 y0 x1 y1 color : U16} {s : State}
    (h0 : min (corners x0 y0 x1 y1).dx.toNat (s.geom.width.toNat - (corners x0 y0 x1 y1).xa.toNat) = 0 ∨
      min (corners x0 y0 x1 y1).dy.toNat (s.geom.height.toNat - (corners x0 y0 x1 y1).ya.toNat) = 0) :
    ∃ k, exec (.rectfc x0 y0 x1 y1 color) s =
      .next { s.onlyAdvanced with
        clampWork := k
        cornerWork := { corners x0 y0 x1 y1 with xb := s.cornerWork.xb, yb := s.cornerWork.yb } } := by
  rw [exec_rectfc]
  exact exec_rectf_of_silent (rectF_silent h0)

/-- A side of one pixel is not cut by the clamp of an origin on the panel. -/
theorem min_one_sub {limit origin : U16} (h : origin < limit) : min (1 : U16).toNat (limit.toNat - origin.toNat) = 1 :=
  min_eq_left (Nat.sub_pos_of_lt h)

/-! ### RECTH (R144) -/

/-- RECTH reads its four coordinates only through the ordered corners. -/
theorem exec_recth_congr {x0 y0 x1 y1 x0' y0' x1' y1' : U16} (h : corners x0 y0 x1 y1 = corners x0' y0' x1' y1')
    (color : U16) (s : State) : exec (.recth x0 y0 x1 y1 color) s = exec (.recth x0' y0' x1' y1' color) s := by
  simp only [exec, execRecth, rectHollow, h]

theorem exec_rectfc_congr {x0 y0 x1 y1 x0' y0' x1' y1' : U16} (h : corners x0 y0 x1 y1 = corners x0' y0' x1' y1')
    (color : U16) (s : State) : exec (.rectfc x0 y0 x1 y1 color) s = exec (.rectfc x0' y0' x1' y1' color) s := by
  simp only [exec, execRectfc, rectFromCorners, h]

/-- Between equal corners each of the four sides of RECTH has an extent 0, and the far corner is left out. -/
theorem rectHollow_point (x y color : U16) (s : State) :
    ∃ k, rectHollow x y x y color s = { s with clampWork := k, cornerWork := corners x y x y } := by
  have hdx := corners_dx_self x y y
  have hdy := corners_dy_self x x y
  unfold rectHollow
  generalize corners x y x y = c at *
  obtain ⟨k1, top⟩ := rectF_zero_width c.xa c.ya 1 color { s with cornerWork := c }
  obtain ⟨k2, bottom⟩ := rectF_zero_width c.xa c.yb 1 color { s with clampWork := k1, cornerWork := c }
  obtain ⟨k3, left⟩ := rectF_zero_height c.xa c.ya 1 color { s with clampWork := k2, cornerWork := c }
  obtain ⟨k4, right⟩ := rectF_zero_height c.xb c.ya 1 color { s with clampWork := k3, cornerWork := c }
  dsimp only
  rw [hdx, hdy, top, bottom, left, right, if_neg (by simp)]
  exact ⟨k4, rfl⟩

theorem exec_recth_point (x y color : U16) (s : State) :
    ∃ k, exec (.recth x y x y color) s =
      .next { s.onlyAdvanced with clampWork := k, cornerWork := corners x y x y } := by
  obtain ⟨k, hk⟩ := rectHollow_point x y color s
  exact ⟨k, by rw [exec, execRecth, hk]; rfl⟩

theorem cornerWork_rectHollow (x0 y0 x1 y1 color : U16) (s : State) :
    (rectHollow x0 y0 x1 y1 color s).cornerWork = corners x0 y0 x1 y1 :=
  congrArg State.cornerWork (rectHollow_frame x0 y0 x1 y1 color s)

/-! ### What a drawing operation emits (R146) -/

/-- Windows inside the panel, each followed at once by a burst of exactly its pixel count in one colour, and nothing else. -/
def FilledWindows (cfg : Config) (g : Geometry) (color : U16) (ev : List Event) : Prop :=
  ∃ parts : List (U16 × U16 × U16 × U16),
    ev = parts.flatMap (fun p => fillEvents cfg p.1 p.2.1 p.2.2.1 p.2.2.2 color) ∧
      ∀ p ∈ parts, onPanel g p.1 p.2.1 p.2.2.1 p.2.2.2

section
variable {cfg : Config} {g : Geometry} {color : U16}

theorem FilledWindows.nil : FilledWindows cfg g color [] := ⟨[], rfl, List.forall_mem_nil _⟩

theorem FilledWindows.append {a b : List Event} (ha : FilledWindows cfg g color a) (hb : FilledWindows cfg g color b) :
    FilledWindows cfg g color (a ++ b) := by
  obtain ⟨p, rfl, hp⟩ := ha
  obtain ⟨q, rfl, hq⟩ := hb
  exact ⟨p ++ q, List.flatMap_append.symm, List.forall_mem_append.2 ⟨hp, hq⟩⟩

theorem FilledWindows.flatMap {α : Type} {l : List α} {f : α → List Event}
    (h : ∀ a ∈ l, FilledWindows cfg g color (f a)) : FilledWindows cfg g color (l.flatMap f) := by
  induction l with
  | nil => exact .nil
  | cons a l ih =>
    rw [List.forall_mem_cons] at h
    exact h.1.append (ih h.2)

theorem FilledWindows.window {x1 y1 x2 y2 : U16} (h : onPanel g x1 y1 x2 y2) {n : Nat}
    (hn : n = (x2.toNat - x1.toNat + 1) * (y2.toNat - y1.toNat + 1)) :
    FilledWindows cfg g color (windowEvents cfg x1 y1 x2 y2 ++ burstEvents cfg color n) := by
  subst hn
  exact ⟨[(x1, y1, x2, y2)], (List.append_nil _).symm, List.forall_mem_singleton.2 h⟩

theorem filledWindows_pixelEvents (x y : U16) : FilledWindows cfg g color (pixelEvents cfg g x y color) := by
  unfold pixelEvents
  split
  case isTrue => exact .nil
  case isFalse hon =>
    obtain ⟨hx, hy⟩ : x < g.width ∧ y < g.height := by simpa [offPanel] using hon
    exact .window ⟨BitVec.le_refl x, hx, BitVec.le_refl y, hy⟩ (by simp)

/-- A clamped extent that is not 0 keeps the far coordinate inside the panel, and is the number of coordinates up to it. -/
theorem far_inside {limit origin extent : U16} (h : origin < limit) (h0 : clamp limit origin extent ≠ 0) :
    let far := origin + clamp limit origin extent - 1
    origin ≤ far ∧ far < limit ∧ (clamp limit origin extent).toNat = far.toNat - origin.toNat + 1 := by
  have hc := clamp_toNat h extent
  have hpos := toNat_ne_zero h0
  simp only [BitVec.le_def, BitVec.lt_def, far_toNat h h0] at h ⊢
  omega

theorem filledWindows_rectEvents (x y w h : U16) : FilledWindows cfg g color (rectEvents cfg g x y w h color) := by
  unfold rectEvents
  dsimp only
  split
  case isTrue => exact .nil
  case isFalse hdrawn =>
    obtain ⟨hon, hw, hh⟩ := by simpa only [not_or] using hdrawn
    obtain ⟨hx, hy⟩ : x < g.width ∧ y < g.height := by simpa [offPanel] using hon
    obtain ⟨hleX, hltX, hcountX⟩ := far_inside hx hw
    obtain ⟨hleY, hltY, hcountY⟩ := far_inside hy hh
    exact .window ⟨hleX, hltX, hleY, hltY⟩ (congrArg₂ (· * ·) hcountX hcountY)

theorem filledWindows_hollowRectEvents (k : CornerWork) : FilledWindows cfg g color (hollowRectEvents cfg g k color) := by
  unfold hollowRectEvents
  refine .append (.append (.append (.append ?top ?bottom) ?left) ?right) ?corner
  case corner =>
    split
    exacts [filledWindows_pixelEvents .., .nil]
  all_goals exact filledWindows_rectEvents ..

theorem filledWindows_plots (cx cy : U16) (offsets : List (Int × Int)) :
    FilledWindows cfg g color (offsets.flatMap fun o => plotEvents cfg g cx cy o color) :=
  .flatMap fun _ _ => filledWindows_pixelEvents _ _

end

/-- R146, over the eight operations that read `GEOM`. -/
theorem filledWindows_operationEvents {i : Instr} (h : readsGeometry i = true) (cfg : Config) (g : Geometry) :
    FilledWindows cfg g (drawingColor i) (operationEvents cfg g i) := by
  cases i with
  | pixel x y color => exact filledWindows_pixelEvents ..
  | rectf x y w h color => exact filledWindows_rectEvents ..
  | hline x y len color => exact filledWindows_rectEvents ..
  | vline x y len color => exact filledWindows_rectEvents ..
  | recth x0 y0 x1 y1 color => exact filledWindows_hollowRectEvents ..
  | rectfc x0 y0 x1 y1 color => exact filledWindows_rectEvents ..
  | circh cx cy r color => exact filledWindows_plots ..
  | circf cx cy r color => exact filledWindows_plots ..
  | wrcmd | wrpar | setwin | setori | burst => cases h

/-! ### The obligations -/

/-- Settles O31: the row of `OP` 0x10, PIXEL off the panel, and PIXEL on it as one state. -/
theorem pixelDrawsOneClippedPixel : Obligations.PixelDrawsOneClippedPixel :=
  ⟨fun _ _ _ _ _ => decode_ofFields_zero .., fun _ _ color _ => ⟨exec_pixel_off, fun hw hm hx hy =>
    ⟨_, exec_pixel hw hm hx hy, rfl, read_fillBuffer_two color hm, rfl⟩⟩⟩

/-- Settles O32: the row of `OP` 0x11, and the three cases of RECTF. -/
theorem rectfFillsTheClampedRectangle : Obligations.RectfFillsTheClampedRectangle := by
  refine ⟨fun _ _ _ _ _ => decode_ofFields_zero .., fun x y w h color s => ⟨exec_rectf_off, fun hx hy => ?_⟩⟩
  refine ⟨fun h0 => ?_, fun hw hm hW hH => exec_rectf_fills hw hm hx hy hW hH⟩
  obtain ⟨k, hk⟩ := exec_rectf_of_silent (rectF_silent (color := color) h0)
  exact ⟨_, hk, rfl⟩

/-- Settles O33: the row of `OP` 0x12, and HLINE as RECTF of height 1, which no clamp on the panel cuts. -/
theorem hlineFillsTheClampedRow : Obligations.HlineFillsTheClampedRow := by
  refine ⟨fun _ _ _ _ _ => decode_ofFields_zero .., fun x y len color s => ?_⟩
  rw [exec_hline]
  refine ⟨exec_rectf_off, fun _ _ hlen => ?_, fun hw hm hx hy hlen => ?_, rfl⟩
  · obtain ⟨k, hk⟩ := exec_rectf_of_silent (rectF_zero_width x y 1 color s)
    rw [hlen]
    exact ⟨_, hk, rfl⟩
  · have hfills := exec_rectf_fills (w := len) (h := 1) (color := color) hw hm hx hy
    rw [min_one_sub hy] at hfills
    exact hfills (lt_min (toNat_ne_zero hlen) (Nat.sub_pos_of_lt hx)) Nat.one_pos

/-- Settles O34: the row of `OP` 0x13, and VLINE as RECTF of width 1, which no clamp on the panel cuts. -/
theorem vlineFillsTheClampedColumn : Obligations.VlineFillsTheClampedColumn := by
  refine ⟨fun _ _ _ _ _ => decode_ofFields_zero .., fun x y len color s => ?_⟩
  rw [exec_vline]
  refine ⟨exec_rectf_off, fun _ _ hlen => ?_, fun hw hm hx hy hlen => ?_, rfl⟩
  · obtain ⟨k, hk⟩ := exec_rectf_of_silent (rectF_zero_height x y 1 color s)
    rw [hlen]
    exact ⟨_, hk, rfl⟩
  · have hfills := exec_rectf_fills (w := 1) (h := len) (color := color) hw hm hx hy
    rw [min_one_sub hx] at hfills
    exact hfills Nat.one_pos (lt_min (toNat_ne_zero hlen) (Nat.sub_pos_of_lt hy))

/-- Settles O35: the row of `OP` 0x14, and the five parts that RECTH draws over the ordered corners. -/
theorem recthDrawsFiveParts : Obligations.RecthDrawsFiveParts := by
  refine ⟨fun _ _ _ _ _ => decode_ofFields_zero .., fun x0 y0 x1 y1 color s hw hm => ?_⟩
  have emits := (rectHollow_draws hw hm x0 y0 x1 y1 color).emits
  have work := cornerWork_rectHollow x0 y0 x1 y1 color s
  have frame := rectHollow_frame x0 y0 x1 y1 color s
  simp only [hollowRectEvents, corners_delta_ne_zero] at emits
  rw [← work] at frame
  rw [corners_eq] at emits work
  exact ⟨_, rfl, emits, work, congrArg State.complete frame⟩

/-- Settles O37: the row of `OP` 0x15, and RECTFC as RECTF at the ordered corners, after their working values are written. -/
theorem rectfcFillsBetweenTheCorners : Obligations.RectfcFillsBetweenTheCorners := by
  refine ⟨fun _ _ _ _ _ => decode_ofFields_zero .., fun x0 y0 x1 y1 color s => ?_⟩
  simp only [← delta_toNat]
  simp only [← minU_toNat, BitVec.ofNat_toNat, BitVec.setWidth_eq]
  refine ⟨fun hnone => ?_, fun hw hm hx hy hW hH => ?_⟩
  · have hzero : min (maxU x0 x1 - minU x0 x1).toNat (s.geom.width.toNat - (minU x0 x1).toNat) = 0 ∨
        min (maxU y0 y1 - minU y0 y1).toNat (s.geom.height.toNat - (minU y0 y1).toNat) = 0 := by omega
    obtain ⟨k, hk⟩ := exec_rectfc_silent (color := color) hzero
    exact ⟨_, hk, rfl, rfl⟩
  · rw [exec_rectfc]
    exact exec_rectf_fills hw hm hx hy hW hH

/-- Settles O38: the events of a drawing operation are those of its parts. -/
theorem drawingStaysOnThePanel : Obligations.DrawingStaysOnThePanel := by
  intro i s hi hw hm _
  obtain ⟨t, he, d⟩ := exec_does i hw hm
  obtain ⟨parts, hev, hon⟩ := filledWindows_operationEvents hi s.cfg s.geom
  exact ⟨t, parts, he, hev ▸ d.trace, hon⟩

/-- Settles O36: both operations read their coordinates only through the ordered corners, and equal coordinates have delta 0. -/
theorem cornerOrderDoesNotMatter : Obligations.CornerOrderDoesNotMatter := by
  intro x0 y0 x1 y1 color s
  refine ⟨exec_recth_congr (corners_swap ..) color s, exec_recth_congr (corners_swap_x ..) color s,
    exec_rectfc_congr (corners_swap ..) color s, exec_rectfc_congr (corners_swap_x ..) color s, ?_, ?_⟩
  · obtain ⟨k, hk⟩ := exec_recth_point x0 y0 color s
    exact ⟨_, hk, rfl⟩
  · obtain ⟨k, hk⟩ := exec_rectfc_silent (x0 := x0) (y0 := y0) (x1 := x0) (y1 := y1) (color := color) (s := s)
      (.inl (by rw [corners_dx_self]; exact Nat.zero_min _))
    exact ⟨_, hk, rfl⟩

end Sys2Proof.Machine
end

section
/-! PROOFS of the statements about the circles (43_rasterizer_circle.md): each as one state, the reflections and the distance of
the offsets, the bounds of the loops, and the points that reach `Pixel` at their exact coordinates. -/

namespace Sys2Proof.Machine

/-! ### The circles as operations (R164) -/

theorem exec_circh (cx cy r color : U16) (s : State) :
    exec (.circh cx cy r color) s = .next (circleHollow cx cy r color s).complete := rfl

theorem exec_circf (cx cy r color : U16) (s : State) :
    exec (.circf cx cy r color) s = .next (circleFilled cx cy r color s).complete := rfl

/-! ### The working values, for every radius (R160 (f), R161 (e)) -/

/-- The invariant at the first step, also for the radius 0, whose loop never runs (R160 (a)). -/
theorem hollowStart_inv_natCast (r : Nat) : (hollowStart r).Inv r := by
  cases r with
  | zero => constructor <;> decide
  | succ n => exact hollowStart_inv (by omega)

theorem filledStart_inv_natCast (r : Nat) : (filledStart r).Inv r := filledStart_inv (Int.natCast_nonneg r)

theorem Hollow.Inv.lt_two_pow {r : Int} {h : Hollow} (hi : h.Inv r) (hr : r ≤ 65535) :
    ∀ v ∈ [h.x, h.y, h.dx, h.dy, h.err], v.natAbs < 2 ^ 19 := by
  obtain ⟨-, hdx, hdy, hy0, hx, hx1, hy, herr, herr1⟩ := hi
  simp only [List.mem_cons, List.not_mem_nil, or_false, forall_eq_or_imp, forall_eq]
  omega

theorem Filled.Inv.lt_two_pow {r : Int} {f : Filled} (hi : f.Inv r) (hr : r ≤ 65535) :
    ∀ v ∈ [f.x, f.y, f.xChange, f.yChange, f.radiusError, 2 * f.radiusError + f.xChange], v.natAbs < 2 ^ 19 := by
  obtain ⟨-, hxChange, hyChange, hy0, hx, hx1, hy, htest, -, htest1⟩ := hi
  simp only [Filled.test] at htest htest1
  simp only [List.mem_cons, List.not_mem_nil, or_false, forall_eq_or_imp, forall_eq]
  omega

/-! ### The distance from the centre -/

/-- Inside the hollow loop `err`, the excess of the squared distance over `r ^ 2`, is at most 2. -/
theorem Hollow.Inv.distance_le {r : Int} {h : Hollow} (hi : h.Inv r) (hxy : h.y ≤ h.x) :
    h.x * h.x + h.y * h.y ≤ (r + 1) * (r + 1) := by
  have herr := hi.err
  have hle := hi.err_le
  have hr : 1 ≤ r := by linarith [hi.x_le, hi.y_nonneg]
  linarith

/-- Inside the filled loop the test is at most 4, so the squared distance exceeds `r ^ 2` by at most `x + y + 1`. -/
theorem Filled.Inv.distance_le {r : Int} {f : Filled} (hi : f.Inv r) (hxy : f.y ≤ f.x) :
    f.x * f.x + f.y * f.y ≤ (r + 1) * (r + 1) := by
  have htest := hi.test_le_inside hxy
  rw [Filled.test, hi.radiusError, hi.xChange] at htest
  have hx := hi.x_le
  have hexcess : f.x * f.x + f.y * f.y ≤ r * r + f.x + f.y + 1 := by omega
  linarith

/-! ### The reflections -/

theorem octants_reflections {x y a b : Int} (h : (a, b) ∈ octants x y) :
    (-a, b) ∈ octants x y ∧ (a, -b) ∈ octants x y ∧ (b, a) ∈ octants x y := by
  simp only [mem_octants] at h ⊢
  omega

theorem octants_distance {x y a b : Int} (h : (a, b) ∈ octants x y) : a * a + b * b = x * x + y * y := by
  simp only [mem_octants, ← mul_self_eq_mul_self_iff] at h
  omega

/-- The filled circle by distances from the axes: a point lies in a span of a row or in one of the reflected spans. -/
theorem mem_filledOffsets_iff_abs {r : Nat} {a b : Int} :
    (a, b) ∈ filledOffsets r ↔
      ∃ f ∈ filledSteps (r + 1) (filledStart r), |a| ≤ f.x ∧ |b| = f.y ∨ |a| ≤ f.y ∧ |b| = f.x := by
  rw [mem_filledOffsets]
  refine exists_congr fun f => and_congr_right fun hf => ?_
  obtain ⟨hi, hxy⟩ := filledSteps_inv (filledStart_inv_natCast r) hf
  have hy := hi.y_nonneg
  simp only [mem_spanPair, abs_le, abs_eq hy, abs_eq (hy.trans hxy), and_assoc]

/-- The rows and columns of the steps leave no gap: a column inside a step's span is the row of some step, or the column of one
that reaches as high. -/
theorem filledSteps_reflect {r : Nat} {f : Filled} (hf : f ∈ filledSteps (r + 1) (filledStart r)) {j : Int} (hj : 0 ≤ j)
    (hjx : j ≤ f.x) :
    ∃ k ∈ filledSteps (r + 1) (filledStart r), f.y ≤ k.x ∧ j = k.y ∨ f.y ≤ k.y ∧ j = k.x := by
  have inside : ∀ g ∈ filledSteps (r + 1) (filledStart r), g.y ≤ g.x := fun g hg =>
    (filledSteps_inv (filledStart_inv_natCast r) hg).2
  by_cases hrow : ∃ g ∈ filledSteps (r + 1) (filledStart r), j ≤ g.y
  · obtain ⟨g, hg, hjg, hfg⟩ : ∃ g ∈ filledSteps (r + 1) (filledStart r), j ≤ g.y ∧ f.y ≤ g.x := by
      by_cases hjf : j ≤ f.y
      · exact ⟨f, hf, hjf, inside f hf⟩
      · obtain ⟨g, hg, hjg⟩ := hrow
        exact ⟨g, hg, hjg, by linarith [inside g hg]⟩
    obtain ⟨k, hk, hky, hkx⟩ := filledSteps_row hg hj hjg
    exact ⟨k, hk, .inl ⟨hfg.trans hkx, hky.symm⟩⟩
  · have hend : (filledEnd (r + 1) (filledStart r)).x < (filledEnd (r + 1) (filledStart r)).y :=
      (filled_ends (by simp [filledStart])).1
    obtain ⟨k, hk, hkx, hky⟩ := filledSteps_column hend hf hjx (by simpa using hrow)
    exact ⟨k, hk, .inr ⟨hky, hkx.symm⟩⟩

theorem filledOffsets_swap {r : Nat} {a b : Int} (h : (a, b) ∈ filledOffsets r) : (b, a) ∈ filledOffsets r := by
  rw [mem_filledOffsets_iff_abs] at h ⊢
  obtain ⟨f, hf, ⟨ha, hb⟩ | ⟨ha, hb⟩⟩ := h
  · rw [hb]
    exact filledSteps_reflect hf (abs_nonneg a) ha
  · obtain ⟨k, hk, hky, hkx⟩ := filledSteps_row hf (abs_nonneg a) ha
    exact ⟨k, hk, .inl ⟨hb.trans_le hkx, hky.symm⟩⟩

theorem filledOffsets_distance {r : Nat} {a b : Int} (h : (a, b) ∈ filledOffsets r) :
    a * a + b * b ≤ ((r : Int) + 1) * ((r : Int) + 1) := by
  obtain ⟨f, hf, hab⟩ := mem_filledOffsets_iff_abs.1 h
  obtain ⟨hi, hxy⟩ := filledSteps_inv (filledStart_inv_natCast r) hf
  refine le_trans ?_ (hi.distance_le hxy)
  rw [← abs_mul_abs_self a, ← abs_mul_abs_self b]
  obtain ⟨ha, hb⟩ | ⟨ha, hb⟩ := hab
  · rw [hb]
    exact add_le_add_left (mul_self_le_mul_self (abs_nonneg a) ha) _
  · rw [hb, add_comm]
    exact add_le_add_right (mul_self_le_mul_self (abs_nonneg a) ha) _

/-! ### The exact coordinates (R162) -/

theorem trunc16_eq_ofNat {n : Int} (h0 : 0 ≤ n) (h : n < 65536) : trunc16 n = .ofNat 16 n.toNat :=
  eq_ofNat (by rw [trunc16_toNat, Int.emod_eq_of_lt h0 h])

/-- Along one axis no sum aliases: the centre is below the limit, and an offset of at most 65216 stays `limit` short of a wrap. -/
theorem trunc16_lt_iff {limit c : U16} {n : Int} (hl : limit.toNat ≤ 320) (hc : c < limit) (h1 : -65216 ≤ n) (h2 : n ≤ 65216) :
    trunc16 (c.toNat + n) < limit ↔ 0 ≤ c.toNat + n ∧ c.toNat + n < limit.toNat := by
  have hc : c.toNat < limit.toNat := hc
  rw [BitVec.lt_def, trunc16_toNat]
  omega

theorem limits_le_of_legal {g : Geometry} (h : g.Legal) : g.width.toNat ≤ 320 ∧ g.height.toNat ≤ 320 := by
  rcases h with rfl | rfl <;> decide

theorem pixelEvents_on {cfg : Config} {g : Geometry} {x y color : U16} (hx : x < g.width) (hy : y < g.height) :
    pixelEvents cfg g x y color = windowEvents cfg x y x y ++ burstEvents cfg color 1 := by
  rw [pixelEvents, offPanel_eq_false hx hy, if_neg Bool.false_ne_true]

theorem pixelEvents_off {cfg : Config} {g : Geometry} {x y color : U16} (h : ¬ (x < g.width ∧ y < g.height)) :
    pixelEvents cfg g x y color = [] := by
  rw [pixelEvents, if_pos (offPanel_iff.2 (by simpa [imp_iff_not_or] using h))]

/-! ### The obligations -/

/-- Settles O40: both circles are `Plot` over their offset lists, with the frame of the drawing. -/
theorem circlesPlotTheirOffsets : Obligations.CirclesPlotTheirOffsets := by
  refine ⟨fun _ _ _ _ _ => decode_ofFields_zero .., fun _ _ _ _ _ => decode_ofFields_zero ..,
    fun cx cy r color s hw hm => ⟨?_, ?_⟩⟩
  · exact ⟨_, exec_circh cx cy r color s, (circleHollow_draws cx cy r color hw hm).emits,
      congrArg State.complete (circleHollow_frame cx cy r color s)⟩
  · exact ⟨_, exec_circf cx cy r color s, (circleFilled_draws cx cy r color hw hm).emits,
      congrArg State.complete (circleFilled_frame cx cy r color s)⟩

/-- Settles O42: the eight points of a step are the reflections of its `(x, y)`, whose distance the loop's invariant bounds. -/
theorem hollowCircleIsSymmetricAndBounded : Obligations.HollowCircleIsSymmetricAndBounded := by
  intro r ox oy h
  obtain ⟨g, hg, ho⟩ := mem_hollowOffsets.1 h
  obtain ⟨hi, hxy⟩ := hollowSteps_inv (hollowStart_inv_natCast r) hg
  obtain ⟨hx, hy, hswap⟩ := octants_reflections ho
  exact ⟨mem_hollowOffsets.2 ⟨g, hg, hx⟩, mem_hollowOffsets.2 ⟨g, hg, hy⟩, mem_hollowOffsets.2 ⟨g, hg, hswap⟩,
    (octants_distance ho).trans_le (hi.distance_le hxy)⟩

/-- Settles O43: the spans are symmetric in each axis, and the diagonal exchanges the spans of different steps. -/
theorem filledCircleIsSymmetricAndBounded : Obligations.FilledCircleIsSymmetricAndBounded := by
  intro r ox oy h
  refine ⟨?_, ?_, filledOffsets_swap h, filledOffsets_distance h⟩
  all_goals
    rw [mem_filledOffsets_iff_abs] at h ⊢
    rwa [abs_neg]

/-- Settles O44: the gap `x - y` is less than `r` and `r + 1` at the start, and each step closes it by at least 1. -/
theorem circleLoopsEndByTheirOwnTest : Obligations.CircleLoopsEndByTheirOwnTest := by
  intro r
  obtain ⟨hollowStops, hollowStable⟩ := hollow_ends r (fuel := r) (h := hollowStart r) (by simp [hollowStart])
  obtain ⟨filledStops, filledStable⟩ := filled_ends (fuel := r + 1) (f := filledStart r) (by simp [filledStart])
  refine ⟨hollowStops, length_hollowSteps .., hollowStable, filledStops, length_filledSteps .., filledStable, ?_⟩
  intro radius h
  have hgap := hollowNext_gap radius h
  omega

/-- Settles O45: the invariants of the loops bound every working value. -/
theorem circleWorkingValuesNeverOverflow : Obligations.CircleWorkingValuesNeverOverflow := by
  intro r hr
  have hr : (r : Int) ≤ 65535 := by exact_mod_cast hr
  constructor
  · rintro h (hh | rfl)
    · exact (hollowSteps_inv (hollowStart_inv_natCast r) hh).1.lt_two_pow hr
    · exact (hollowEnd_inv (hollowStart_inv_natCast r)).lt_two_pow hr
  · rintro f (hf | rfl)
    · exact (filledSteps_inv (filledStart_inv_natCast r) hf).1.lt_two_pow hr
    · exact (filledEnd_inv (filledStart_inv_natCast r)).lt_two_pow hr

/-- Settles O46: an offset within 65216 of a centre on the panel reduces to a column and a row of the panel only when it lies
there exactly. -/
theorem noAliasingForCentresOnThePanel : Obligations.NoAliasingForCentresOnThePanel := by
  intro cfg g cx cy color r o hg hx hy hr ho x y
  obtain ⟨hx1, hx2, hy1, hy2⟩ := offsets_within ho
  obtain ⟨hwidth, hheight⟩ := limits_le_of_legal hg
  have hcol : trunc16 x < g.width ↔ 0 ≤ x ∧ x < g.width.toNat := trunc16_lt_iff hwidth hx (by omega) (by omega)
  have hrow : trunc16 y < g.height ↔ 0 ≤ y ∧ y < g.height.toNat := trunc16_lt_iff hheight hy (by omega) (by omega)
  rw [← and_assoc, ← hcol, ← hrow]
  refine ⟨fun ⟨hxOn, hyOn⟩ => ?_, pixelEvents_off⟩
  obtain ⟨hx0, hxw⟩ := hcol.1 hxOn
  obtain ⟨hy0, hyh⟩ := hrow.1 hyOn
  rw [← trunc16_eq_ofNat hx0 (by omega), ← trunc16_eq_ofNat hy0 (by omega)]
  exact pixelEvents_on hxOn hyOn

end Sys2Proof.Machine
end

section
/-! PROOFS of the statements about exceptions and completion (60_exceptions.md): no operation faults or is refused, and each runs
to its last event. -/

namespace Sys2Proof.Machine

/-- R26: an operation that starts with chip-select released ends with it released, whether it emits frames or nothing. -/
theorem Does.released {i : Instr} {s t : State} (d : Does i s t) (h : s.cs = .deasserted) : t.cs = .deasserted := by
  rw [d.cs]
  split
  · exact h
  · rfl

/-- Settles O10: the next state of `exec_does`, with the operation's events as what the trace grows by. -/
theorem everyOperationCompletes : Obligations.EveryOperationCompletes := by
  intro i s hw hm
  obtain ⟨t, ht, d⟩ := exec_does i hw hm
  exact ⟨t, operationEvents s.cfg s.geom i, ht, d.trace, d.framed, d.pc, d.busy, d.latches, d.program, d.resetIn, d.cfg,
    d.released⟩

end Sys2Proof.Machine
end

section
/-! PROOFS of the statements about reset, boot, hazards and trace sizes (70_reset_and_hazards.md): what the operations that do not
read `GEOM` do under another geometry, two runs under the two values of `RESET_GEOM`, the boot script as one state, and the
number of events and bytes of every operation. -/

namespace Sys2Proof.Machine

/-! ### Another geometry (R202) -/

theorem fillBuffer_with_geom (color : U16) (n : Nat) (s : State) (g : Geometry) :
    fillBuffer color n { s with geom := g } = { fillBuffer color n s with geom := g } := by
  induction n with
  | zero => rfl
  | succ n ih => rw [fillBuffer, ih]; rfl

/-- A burst reads the colour, the count and `BURST_CAP` (R130), in every state. -/
theorem burst_with_geom (color : U16) (count : U32) (s : State) (g : Geometry) :
    burst color count { s with geom := g } = { burst color count s with geom := g } := by
  by_cases hc : count = 0
  · rw [hc, burst_zero, burst_zero]
  · have fill := fillBuffer_with_geom color (burstArithmetic s.cfg.burstCap count.toNat).bufferSize
      { s with burstWork := burstArithmetic s.cfg.burstCap count.toNat } g
    simp only [burst, if_neg hc, fill, sendBlocks_eq, sendRemainder]
    split <;> rfl

/-! ### Two runs under the two values of `RESET_GEOM` (R202) -/

theorem operationEvents_of_not_readsGeometry {i : Instr} (h : readsGeometry i = false) (cfg : Config) (g g' : Geometry) :
    operationEvents cfg g i = operationEvents cfg g' i := by
  cases i with
  | wrcmd | wrpar | setwin | setori | burst => rfl
  | pixel | rectf | hline | vline | recth | rectfc | circh | circf => cases h

/-- No operation looks at `RESET_GEOM`; only reset does (R36). -/
theorem operationEvents_resetHorizontal (cfg : Config) (b : Bool) (g : Geometry) (i : Instr) :
    operationEvents { cfg with resetHorizontal := b } g i = operationEvents cfg g i := rfl

theorem readsGeometry_of_settlesGeometry {i : Instr} (h : settlesGeometry i = true) : readsGeometry i = false := by
  cases i with
  | setori => rfl
  | _ => cases h

theorem operationGeometry_of_settlesGeometry {i : Instr} (h : settlesGeometry i = true) (g g' : Geometry) :
    operationGeometry g i = operationGeometry g' i := by
  cases i with
  | setori mode =>
    have hm : mode ≤ 3 := of_decide_eq_true h
    rw [operationGeometry, operationGeometry, if_pos hm, if_pos hm]
  | _ => cases h

theorem orientsFirst_of_illegal {w : CommandWord} {ws : List CommandWord} {why : Illegal} (hd : decode w = .illegal why)
    (h : orientsFirst (w :: ws) = true) : orientsFirst ws = true := by
  simpa only [orientsFirst, hd] using h

theorem orientsFirst_of_operation {w : CommandWord} {ws : List CommandWord} {i : Instr} (hd : decode w = .operation i)
    (h : orientsFirst (w :: ws) = true) :
    settlesGeometry i = true ∨ readsGeometry i = false ∧ orientsFirst ws = true := by
  simpa [orientsFirst, hd] using h

/-- Two geometries between which the words to come cannot tell: they are equal, or the words settle `GEOM` before they read it. -/
def Indistinct (g g' : Geometry) (ws : List CommandWord) : Prop := g = g' ∨ orientsFirst ws = true

theorem Indistinct.illegal {g g' : Geometry} {w : CommandWord} {ws : List CommandWord} {why : Illegal}
    (h : Indistinct g g' (w :: ws)) (hd : decode w = .illegal why) : Indistinct g g' ws :=
  h.imp_right (orientsFirst_of_illegal hd)

theorem Indistinct.operation {g g' : Geometry} {w : CommandWord} {ws : List CommandWord} {i : Instr}
    (h : Indistinct g g' (w :: ws)) (hd : decode w = .operation i) (cfg : Config) :
    operationEvents cfg g i = operationEvents cfg g' i ∧
      Indistinct (operationGeometry g i) (operationGeometry g' i) ws := by
  rcases h with rfl | h
  · exact ⟨rfl, .inl rfl⟩
  rcases orientsFirst_of_operation hd h with hs | ⟨hr, hrest⟩
  · exact ⟨operationEvents_of_not_readsGeometry (readsGeometry_of_settlesGeometry hs) cfg g g',
      .inl (operationGeometry_of_settlesGeometry hs g g')⟩
  · exact ⟨operationEvents_of_not_readsGeometry hr cfg g g', .inr hrest⟩

/-- A block that accepts the next word and completes it. -/
structure State.Ready (s : State) : Prop where
  config : s.cfg.wellFormed = true
  released : s.resetIn = false
  idle : s.busy = false
  canonical : s.bb.wf = true

theorem Does.ready {i : Instr} {s t : State} (d : Does i s t) (h : s.cfg.wellFormed = true) (hr : s.resetIn = false) :
    t.Ready :=
  ⟨d.cfg ▸ h, d.resetIn.trans hr, d.busy, d.canonical⟩

/-- Two runs of one program, between two words, of which only `RESET_GEOM` was different. -/
structure SameRun (s t : State) : Prop where
  ready : s.Ready
  ready' : t.Ready
  cfg : ∃ b, t.cfg = { s.cfg with resetHorizontal := b }
  program : t.program = s.program
  trace : t.trace = s.trace
  pc : t.pc = s.pc
  geom : Indistinct s.geom t.geom (s.program.drop s.pc)

/-- One step keeps two runs together. -/
theorem SameRun.step {s t : State} (h : SameRun s t) :
    ∃ s' t', step s = .next s' ∧ step t = .next t' ∧ SameRun s' t' := by
  obtain ⟨⟨hw, hr, hb, hm⟩, ⟨hw', hr', hb', hm'⟩, ⟨b, hc⟩, hp, htr, hpc, hg⟩ := id h
  have hsame : t.program[t.pc]? = s.program[s.pc]? := by rw [hp, hpc]
  cases hword : s.program[s.pc]? with
  | none => exact ⟨s, t, step_notPresented hw hr hb hword, step_notPresented hw' hr' hb' (hsame.trans hword), h⟩
  | some w =>
    obtain ⟨hlt, rfl⟩ := List.getElem?_eq_some_iff.1 hword
    rw [List.drop_eq_getElem_cons hlt] at hg
    cases hd : decode s.program[s.pc] with
    | illegal why =>
      exact ⟨_, _, step_illegal hw hr hb hword hd, step_illegal hw' hr' hb' (hsame.trans hword) hd,
        ⟨hw, hr, hb, hm⟩, ⟨hw', hr', hb', hm'⟩, ⟨b, hc⟩, hp, htr, congrArg (· + 1) hpc, hg.illegal hd⟩
    | operation i =>
      obtain ⟨s', hs, d⟩ := exec_does i (s := s.accept s.program[s.pc]) hw hm
      obtain ⟨t', ht, d'⟩ := exec_does i (s := t.accept s.program[s.pc]) hw' hm'
      obtain ⟨hev, hg'⟩ := hg.operation hd s.cfg
      refine ⟨s', t', (step_operation hw hr hb hword hd).trans hs,
        (step_operation hw' hr' hb' (hsame.trans hword) hd).trans ht, d.ready hw hr, d'.ready hw' hr',
        ⟨b, by rw [d'.cfg, d.cfg]; exact hc⟩, by rw [d'.program, d.program]; exact hp, ?trace,
        by rw [d'.pc, d.pc]; exact congrArg (· + 1) hpc, by rw [d'.geom, d.geom, d.program, d.pc]; exact hg'⟩
      rw [d'.trace, d.trace]
      simp only [State.accept_trace, State.accept_cfg, State.accept_geom]
      rw [htr, hc, operationEvents_resetHorizontal, hev]

theorem SameRun.steps {s t : State} (h : SameRun s t) (n : Nat) :
    ∃ s' t', steps n s = .next s' ∧ steps n t = .next t' ∧ SameRun s' t' := by
  induction n generalizing s t with
  | zero => exact ⟨s, t, rfl, rfl, h⟩
  | succ n ih =>
    obtain ⟨s1, t1, hs, ht, h1⟩ := h.step
    obtain ⟨s', t', hs', ht', h'⟩ := ih h1
    exact ⟨s', t', by rw [Machine.steps, hs]; exact hs', by rw [Machine.steps, ht]; exact ht', h'⟩

theorem ready_ofReset {cfg : Config} (h : cfg.wellFormed = true) (program : List CommandWord) :
    (State.ofReset cfg program).Ready :=
  ⟨h, rfl, rfl, Memory.wf_nil⟩

/-- The first word after reset, if it is an operation. -/
theorem steps_one_ofReset {cfg : Config} (h : cfg.wellFormed = true) (i : Instr) :
    ∃ t, steps 1 (State.ofReset cfg [encode i]) = .next t ∧ t.trace = operationEvents cfg cfg.resetGeom i := by
  obtain ⟨t, ht, d⟩ := exec_does i (s := (State.ofReset cfg [encode i]).accept (encode i)) h Memory.wf_nil
  have hstep : step (State.ofReset cfg [encode i]) = .next t :=
    (step_operation h rfl rfl rfl (decode_encode i)).trans ht
  exact ⟨t, by simp only [steps, hstep], d.trace⟩

/-! ### The boot script (R201) -/

/-- The two operations a script is made of. -/
def SendsOneByte (i : Instr) : Prop := (∃ byte, i = .wrcmd byte) ∨ ∃ byte, i = .wrpar byte

theorem exec_sendsOneByte {i : Instr} (h : SendsOneByte i) (s : State) :
    ∃ m, exec i s = .next (s.afterFrames (operationEvents s.cfg s.geom i) m 1) := by
  rcases h with ⟨byte, rfl⟩ | ⟨byte, rfl⟩
  exacts [⟨.command, exec_wrcmd byte s⟩, ⟨.data, exec_wrpar byte s⟩]

/-- Any number of single-byte operations, as one state but for the outputs and `BUSY`, which an empty list leaves as they were. -/
theorem execAll_sendsOneByte {is : List Instr} (h : ∀ i ∈ is, SendsOneByte i) (s : State) :
    ∃ cs dc busy, execAll is s = .next { s with
      trace := s.trace ++ is.flatMap (operationEvents s.cfg s.geom)
      cs := cs, dc := dc, pc := s.pc + is.length, busy := busy } := by
  induction is generalizing s with
  | nil => exact ⟨s.cs, s.dc, s.busy, by simp [execAll]⟩
  | cons i is ih =>
    rw [List.forall_mem_cons] at h
    obtain ⟨m, hi⟩ := exec_sendsOneByte h.1 s
    obtain ⟨cs, dc, busy, his⟩ := ih h.2 (s.afterFrames (operationEvents s.cfg s.geom i) m 1)
    refine ⟨cs, dc, busy, ?_⟩
    rw [execAll, hi]
    simpa [State.afterFrames, Nat.add_assoc, Nat.add_comm 1] using his

theorem sendsOneByte_of_mem_bootScript {script : List (Byte × List Byte)} {i : Instr} (h : i ∈ bootScript script) :
    SendsOneByte i := by
  obtain ⟨p, -, hi⟩ := List.mem_flatMap.1 h
  rcases List.mem_cons.1 hi with rfl | hi
  · exact .inl ⟨p.1, rfl⟩
  · obtain ⟨byte, -, rfl⟩ := List.mem_map.1 hi
    exact .inr ⟨byte, rfl⟩

theorem flatMap_operationEvents_bootScript (script : List (Byte × List Byte)) (cfg : Config) (g : Geometry) :
    (bootScript script).flatMap (operationEvents cfg g) =
      script.flatMap fun p => commandFrame p.1 ++ p.2.flatMap parameterFrame := by
  rw [bootScript, List.flatMap_assoc]
  simp only [List.flatMap_cons, List.flatMap_map, operationEvents]

theorem length_bootScript (script : List (Byte × List Byte)) :
    (bootScript script).length = (script.map fun p => 1 + p.2.length).sum := by
  simp [bootScript, List.length_flatMap, Nat.add_comm]

/-! ### The sizes of the traces (R212) -/

/-- The number of events and of bytes of a list of events (R14). -/
def HasSize (ev : List Event) (events bytes : Nat) : Prop := ev.length = events ∧ byteCount ev = bytes

theorem HasSize.nil : HasSize [] 0 0 := ⟨rfl, rfl⟩

theorem HasSize.append {a b : List Event} {e e' n n' : Nat} (ha : HasSize a e n) (hb : HasSize b e' n') :
    HasSize (a ++ b) (e + e') (n + n') :=
  ⟨by rw [List.length_append, ha.1, hb.1], by rw [byteCount_append, ha.2, hb.2]⟩

theorem hasSize_commandFrame (byte : Byte) : HasSize (commandFrame byte) 4 1 := ⟨rfl, rfl⟩

theorem hasSize_parameterFrame (byte : Byte) : HasSize (parameterFrame byte) 4 1 := ⟨rfl, rfl⟩

theorem hasSize_windowEvents (cfg : Config) (x1 y1 x2 y2 : U16) : HasSize (windowEvents cfg x1 y1 x2 y2) 44 11 :=
  ⟨length_windowEvents .., byteCount_windowEvents ..⟩

/-- An operation appends its events, so their size is the size it appends. -/
theorem exec_appends {i : Instr} {s : State} {events bytes : Nat} (hw : s.cfg.wellFormed = true) (hm : s.bb.wf = true)
    (h : HasSize (operationEvents s.cfg s.geom i) events bytes) : Appends (exec i s) s events bytes := by
  obtain ⟨t, ht, d⟩ := exec_does i hw hm
  exact ⟨t, _, ht, d.trace, h⟩

/-- The events of a burst of `n > 0` pixels in the table of R212. -/
def burstLength (cap n : Nat) : Nat :=
  3 + (2 * n) / min (2 * n) cap + (if 0 < (2 * n) % min (2 * n) cap then 1 else 0)

/-- The pixels that `RectF` draws (R141), 0 where it draws nothing. -/
def rectPixels (g : Geometry) (x y w h : U16) : Nat :=
  if offPanel g x y then 0 else min w.toNat (g.width.toNat - x.toNat) * min h.toNat (g.height.toNat - y.toNat)

/-- The events of a rectangle of `n` pixels in the table of R212. -/
def rectLength (cap n : Nat) : Nat := if n = 0 then 0 else 44 + burstLength cap n

/-- The bytes of a rectangle of `n` pixels in the table of R212. -/
def rectBytes (n : Nat) : Nat := if n = 0 then 0 else 11 + 2 * n

section
variable {cfg : Config} (hw : cfg.wellFormed = true) (g : Geometry) (color : U16)
include hw

theorem hasSize_burstEvents {n : Nat} (hn : 0 < n) :
    HasSize (burstEvents cfg color n) (burstLength cfg.burstCap n) (2 * n) :=
  ⟨length_burstEvents hn, byteCount_burstEvents (Config.two_le_burstCap hw) color n⟩

theorem hasSize_pixelEvents_on {x y : U16} (h : offPanel g x y = false) :
    HasSize (pixelEvents cfg g x y color) 48 13 := by
  rw [pixelEvents, h, if_neg Bool.false_ne_true, burstEvents_one (Config.two_le_burstCap hw)]
  exact (hasSize_windowEvents cfg x y x y).append ⟨rfl, rfl⟩

omit hw in
theorem hasSize_pixelEvents_off {x y : U16} (h : offPanel g x y = true) : HasSize (pixelEvents cfg g x y color) 0 0 := by
  rw [pixelEvents, if_pos h]
  exact .nil

theorem hasSize_rectEvents (x y w h : U16) :
    HasSize (rectEvents cfg g x y w h color) (rectLength cfg.burstCap (rectPixels g x y w h))
      (rectBytes (rectPixels g x y w h)) := by
  by_cases hoff : offPanel g x y = true
  · rw [rectEvents, if_pos (.inl hoff), rectPixels, if_pos hoff]
    exact .nil
  obtain ⟨hx, hy⟩ : x < g.width ∧ y < g.height := by simpa [offPanel] using hoff
  rw [rectEvents, rectPixels, if_neg hoff, ← clamp_toNat hx, ← clamp_toNat hy]
  split
  case isTrue hnone =>
    have hzero : (clamp g.width x w).toNat * (clamp g.height y h).toNat = 0 := by
      rw [eq_zero_iff, eq_zero_iff] at hnone
      exact Nat.mul_eq_zero.2 (hnone.resolve_left hoff)
    rw [hzero]
    exact .nil
  case isFalse hdrawn =>
    obtain ⟨-, hW, hH⟩ := by simpa only [not_or] using hdrawn
    have hpos := Nat.mul_pos (toNat_ne_zero hW) (toNat_ne_zero hH)
    rw [rectLength, rectBytes, if_neg hpos.ne', if_neg hpos.ne']
    exact (hasSize_windowEvents ..).append (hasSize_burstEvents hw color hpos)

theorem hasSize_plots (cx cy : U16) (offsets : List (Int × Int)) :
    let n := offsets.countP fun o => !offPanel g (trunc16 (cx.toNat + o.1)) (trunc16 (cy.toNat + o.2))
    HasSize (offsets.flatMap fun o => plotEvents cfg g cx cy o color) (48 * n) (13 * n) := by
  induction offsets with
  | nil => exact .nil
  | cons o os ih =>
    simp only [List.flatMap_cons, List.countP_cons]
    cases h : offPanel g (trunc16 (cx.toNat + o.1)) (trunc16 (cy.toNat + o.2)) with
    | false => simpa [plotEvents, Nat.mul_add, Nat.add_comm] using (hasSize_pixelEvents_on hw g color h).append ih
    | true => simpa [plotEvents] using (hasSize_pixelEvents_off g color h).append ih

/-- The far corner of RECTH is drawn unless both corners are equal or it lies off the panel (R144). -/
theorem hasSize_corner (x0 y0 x1 y1 : U16) :
    let k := corners x0 y0 x1 y1
    let drawn := (x0 ≠ x1 ∨ y0 ≠ y1) ∧ offPanel g (maxU x0 x1) (maxU y0 y1) = false
    HasSize (if k.dx ≠ 0 ∨ k.dy ≠ 0 then pixelEvents cfg g k.xb k.yb color else [])
      (if drawn then 48 else 0) (if drawn then 13 else 0) := by
  simp only [corners_delta_ne_zero]
  by_cases hne : x0 ≠ x1 ∨ y0 ≠ y1
  · rw [if_pos hne]
    by_cases hon : offPanel g (maxU x0 x1) (maxU y0 y1) = false
    · rw [if_pos ⟨hne, hon⟩, if_pos ⟨hne, hon⟩]
      exact hasSize_pixelEvents_on hw g color hon
    · rw [if_neg fun h => hon h.2, if_neg fun h => hon h.2]
      exact hasSize_pixelEvents_off g color (Bool.eq_true_of_not_eq_false hon)
  · rw [if_neg hne, if_neg fun h => hne h.1, if_neg fun h => hne h.1]
    exact .nil

end

/-! ### The obligations -/

/-- Settles O15: each of the five operations as one state, of which only a SETORI with a valid mode writes the geometry. -/
theorem framerAndBurstDoNotReadGeometry : Obligations.FramerAndBurstDoNotReadGeometry := by
  intro i s t g hi he
  cases i with
  | wrcmd byte =>
    rw [exec_wrcmd] at he ⊢
    cases he
    rfl
  | wrpar byte =>
    rw [exec_wrpar] at he ⊢
    cases he
    rfl
  | setwin x1 y1 x2 y2 =>
    rw [exec_setwin] at he ⊢
    cases he
    rfl
  | setori mode =>
    by_cases hm : mode ≤ 3
    · rw [exec_setori_valid hm] at he ⊢
      cases he
      rw [show settlesGeometry (.setori mode) = true from decide_eq_true hm]
      rfl
    · rw [exec_setori_invalid hm] at he ⊢
      cases he
      rw [show settlesGeometry (.setori mode) = false from decide_eq_false hm]
      rfl
  | burst color count =>
    cases he
    rw [exec, execBurst, burst_with_geom]
    rfl
  | pixel | rectf | hline | vline | recth | rectfc | circh | circf => cases hi

/-- Settles O16: two runs stay together from reset on; `PIXEL 300, 5` of R202 is on one panel only. -/
theorem orientedProgramsAreDetermined : Obligations.OrientedProgramsAreDetermined := by
  refine ⟨fun cfg program n hw horients => ?_, fun cfg hw => ?_⟩
  · have start : SameRun (State.ofReset { cfg with resetHorizontal := false } program)
        (State.ofReset { cfg with resetHorizontal := true } program) :=
      ⟨ready_ofReset (by exact hw) program, ready_ofReset (by exact hw) program, ⟨true, rfl⟩, rfl, rfl, rfl, .inr horients⟩
    obtain ⟨t, t', ht, ht', h⟩ := start.steps n
    exact ⟨t, t', ht, ht', h.trace.symm, h.pc.symm⟩
  · obtain ⟨t, ht, htrace⟩ := steps_one_ofReset (cfg := { cfg with resetHorizontal := false }) hw (.pixel 300 5 0)
    obtain ⟨t', ht', htrace'⟩ := steps_one_ofReset (cfg := { cfg with resetHorizontal := true }) hw (.pixel 300 5 0)
    refine ⟨[encode (.pixel 300 5 0)], t, t', ht, ht', ?_⟩
    rw [htrace, htrace']
    have off : operationEvents { cfg with resetHorizontal := false } Config.panelV (.pixel 300 5 0) = [] :=
      pixelEvents_off (by decide)
    have on : operationEvents { cfg with resetHorizontal := true } Config.panelH (.pixel 300 5 0) ≠ [] := by
      rw [operationEvents, pixelEvents_on (by decide) (by decide)]
      simp
    exact off.trans_ne on.symm

/-- Settles O27: the script is a list of single-byte operations. -/
theorem bootScriptIsSentByteByByte : Obligations.BootScriptIsSentByteByByte := by
  intro script s
  obtain ⟨cs, dc, busy, h⟩ := execAll_sendsOneByte (fun _ hi => sendsOneByte_of_mem_bootScript hi) s
  rw [flatMap_operationEvents_bootScript, length_bootScript] at h
  exact ⟨_, h, rfl, rfl, rfl⟩

/-- Settles O39: the rows of the table, in the order of the statement. -/
theorem traceSizesOfEveryOperation : Obligations.TraceSizesOfEveryOperation := by
  intro s hw hm
  have rect := hasSize_rectEvents hw s.geom
  have plots := hasSize_plots hw s.geom
  refine ⟨fun byte => ⟨exec_appends hw hm (hasSize_commandFrame byte), exec_appends hw hm (hasSize_parameterFrame byte)⟩,
    fun x1 y1 x2 y2 => exec_appends hw hm (hasSize_windowEvents ..),
    fun mode h => appends_setori_valid h s,
    fun mode h => ⟨_, [], exec_setori_invalid (BitVec.not_le.2 h) s, (List.append_nil _).symm, HasSize.nil⟩,
    fun color => exec_appends hw hm .nil,
    fun color count hc => exec_appends hw hm (hasSize_burstEvents hw color (toNat_ne_zero hc)),
    fun x y color h => exec_appends hw hm (hasSize_pixelEvents_on hw s.geom color h),
    fun x y color h => exec_appends hw hm (hasSize_pixelEvents_off s.geom color h),
    fun x y w h color => exec_appends hw hm (rect color x y w h),
    fun x y len color => exec_appends hw hm (rect color x y len 1),
    fun x y len color => exec_appends hw hm (rect color x y 1 len),
    fun x0 y0 x1 y1 color => exec_appends hw hm (rect color _ _ _ _),
    fun x0 y0 x1 y1 color => exec_appends hw hm ?recth,
    fun cx cy r color => ⟨exec_appends hw hm (plots color cx cy _), exec_appends hw hm (plots color cx cy _)⟩,
    fun w why hr hb hp hd => ⟨_, [], step_illegal hw hr hb hp hd, (List.append_nil _).symm, HasSize.nil⟩⟩
  exact ((((rect color _ _ _ _).append (rect color _ _ _ _)).append (rect color _ _ _ _)).append
    (rect color _ _ _ _)).append (hasSize_corner hw s.geom color x0 y0 x1 y1)

end Sys2Proof.Machine
end

section
/-! PROOFS of the statements about every step and every run (10_state.md, 60_exceptions.md, 70_reset_and_hazards.md): the invariant
at reset and after a step, the steps that accept no word, what no step writes, and how far a run of a program gets. -/

namespace Sys2Proof.Machine

/-! ### The invariant -/

theorem operationGeometry_legal {g : Geometry} (h : g.Legal) (i : Instr) : (operationGeometry g i).Legal := by
  rcases operationGeometry_cases g i with hk | ⟨mode, -, -, hk⟩ <;> rw [hk]
  exacts [h, modeGeometry_legal mode]

theorem ofReset_inv {cfg : Config} (h : cfg.wellFormed = true) (program : List CommandWord) :
    (State.ofReset cfg program).Inv where
  config := h
  geometry := Config.resetGeom_legal cfg
  idle := rfl
  released := rfl
  canonical := Memory.wf_nil
  inRange := List.forall_mem_nil _
  framed := Framed.nil
  mode := rfl
  pcInList := Nat.zero_le _

/-- R200: the state held under `RESET` is the reset state but for the level, of which the invariant says nothing. -/
theorem heldInReset_inv {s : State} (h : s.cfg.wellFormed = true) : s.heldInReset.Inv :=
  { ofReset_inv h s.program with }

/-- R83: an ILLEGAL word moves `pc` on, past the word that was there. -/
theorem State.Inv.skipIllegal {s : State} (h : s.Inv) (hpc : s.pc < s.program.length) : s.skipIllegal.Inv :=
  { h with pcInList := hpc }

/-- An operation keeps the invariant: the events it appends are whole frames, and `DC` is the mode they leave. -/
theorem State.Inv.operation {i : Instr} {w : CommandWord} {s t : State} (h : s.Inv) (hpc : s.pc < s.program.length)
    (d : Does i (s.accept w) t) : t.Inv where
  config := d.cfg ▸ h.config
  geometry := d.geom ▸ operationGeometry_legal h.geometry i
  idle := d.busy
  released := d.released h.released
  canonical := d.canonical
  inRange := d.inRange h.inRange
  framed := d.trace ▸ h.framed.append d.framed
  mode := by
    rw [d.trace, modeAfter_append, d.dc]
    exact congrArg (modeAfter · _) h.mode
  pcInList := by
    rw [d.pc, d.program]
    exact hpc

theorem State.Inv.step {s t : State} (h : s.Inv) (hs : step s = .next t) : t.Inv := by
  obtain ⟨hw, ⟨-, rfl⟩ | ⟨-, -, ⟨-, rfl⟩ | ⟨w, hp, ⟨why, -, rfl⟩ | ⟨i, -, he⟩⟩⟩⟩ := step_cases hs
  · exact heldInReset_inv hw
  · exact h
  · exact h.skipIllegal (List.getElem?_eq_some_iff.1 hp).1
  · exact h.operation (List.getElem?_eq_some_iff.1 hp).1 (Does.of_exec h.config h.canonical he)

/-! ### The steps that answer no next state -/

theorem step_illFormed {s : State} (hw : s.cfg.wellFormed = false) : step s = .refused .configurationOutsideSpec :=
  if_pos hw

theorem step_busy {s : State} (hw : s.cfg.wellFormed = true) (hr : s.resetIn = false) (hb : s.busy = true) :
    step s = .fault .stuckInSend := by
  simp [step, hw, hr, hb]

/-- R54, R210: a capacity is outside the spec when it is odd or below 2. -/
theorem Config.wellFormed_eq_false_iff {c : Config} : c.wellFormed = false ↔ c.burstCap % 2 = 1 ∨ c.burstCap < 2 := by
  simp only [Config.wellFormed, Bool.and_eq_false_iff, decide_eq_false_iff_not]
  omega

/-! ### A run from an idle block -/

theorem step_cfg_program {s t : State} (h : step s = .next t) : t.cfg = s.cfg ∧ t.program = s.program := by
  obtain ⟨-, ⟨-, rfl⟩ | ⟨-, -, ⟨-, rfl⟩ | ⟨w, -, ⟨why, -, rfl⟩ | ⟨i, -, he⟩⟩⟩⟩ := step_cases h
  · exact ⟨rfl, rfl⟩
  · exact ⟨rfl, rfl⟩
  · exact ⟨rfl, rfl⟩
  · obtain ⟨u, hu, -, -, -, -, hprog, -, hcfg⟩ := exec_frame i (s.accept w)
    cases hu.symm.trans he
    exact ⟨hcfg, hprog⟩

/-- A step out of reset completes one word, or stays where the list has ended (log 10). -/
theorem State.Inv.advances {s : State} (h : s.Inv) (hr : s.resetIn = false) :
    ∃ t, Machine.step s = .next t ∧ t.resetIn = false ∧ t.pc = min (s.pc + 1) s.program.length := by
  cases hp : s.program[s.pc]? with
  | none =>
    have hend : s.pc = s.program.length := le_antisymm h.pcInList (List.getElem?_eq_none_iff.1 hp)
    exact ⟨s, step_notPresented h.config hr h.idle hp, hr, by omega⟩
  | some w =>
    have hpc : s.pc < s.program.length := (List.getElem?_eq_some_iff.1 hp).1
    have hmin : s.pc + 1 = min (s.pc + 1) s.program.length := by omega
    cases hd : decode w with
    | illegal why => exact ⟨_, step_illegal h.config hr h.idle hp hd, hr, hmin⟩
    | operation i =>
      obtain ⟨t, ht, d⟩ := exec_does i (s := s.accept w) h.config h.canonical
      exact ⟨t, (step_operation h.config hr h.idle hp hd).trans ht, d.resetIn.trans hr, d.pc.trans hmin⟩

theorem State.Inv.steps {s : State} (h : s.Inv) (hr : s.resetIn = false) (n : Nat) :
    ∃ t, Machine.steps n s = .next t ∧ t.Inv ∧ t.pc = min (s.pc + n) s.program.length := by
  induction n generalizing s with
  | zero => exact ⟨s, rfl, h, (min_eq_left h.pcInList).symm⟩
  | succ n ih =>
    obtain ⟨u, hu, hur, hpc⟩ := h.advances hr
    obtain ⟨t, ht, hi, htpc⟩ := ih (h.step hu) hur
    refine ⟨t, by rw [Machine.steps, hu]; exact ht, hi, ?_⟩
    rw [htpc, hpc, (step_cfg_program hu).2]
    omega

/-! ### A placed word (log 21) -/

theorem decode_tableWord {nbits w : Nat} {i : Instr} (h : decodeTableWord nbits w = some i) :
    decode (tableWord nbits w) = .operation i := by
  unfold decodeTableWord at h
  split at h
  · split at h
    · cases h
      assumption
    · cases h
  · cases h

/-- The word stands at its index, also when the list had to be filled up to it. -/
theorem getElem?_placeWord (program : List CommandWord) (pc : Nat) (w : CommandWord) :
    (placeWord program pc w)[pc]? = some w := by
  have hlen : (program.take pc ++ List.replicate (pc - program.length) 0).length = pc := by
    rw [List.length_append, List.length_take, List.length_replicate]
    omega
  rw [placeWord, List.getElem?_append_right hlen.le, hlen, Nat.sub_self, List.getElem?_cons_zero]

/-! ### The obligations -/

/-- Settles O3: reset restores the invariant, an ILLEGAL word moves `pc` only, and an operation appends whole frames. -/
theorem everyStepKeepsInvariant : Obligations.EveryStepKeepsInvariant :=
  fun _ _ h hs => h.step hs

/-- Settles O9: reset is idle with `RESET` released, and every step from there is one word or none. -/
theorem everyProgramRunsToItsEnd : Obligations.EveryProgramRunsToItsEnd := by
  intro cfg program n hw
  obtain ⟨t, ht, hi, hpc⟩ := (ofReset_inv hw program).steps rfl n
  exact ⟨t, ht, hi, hpc.trans (congrArg (min · program.length) (Nat.zero_add n))⟩

/-- Settles O11: the frame of every arm of a step, and the test a step begins with. -/
theorem parametersAreFixedForARun : Obligations.ParametersAreFixedForARun :=
  ⟨fun _ _ h => step_cfg_program h, fun _ hc => step_illFormed (Config.wellFormed_eq_false_iff.2 hc)⟩

/-- Settles O2: the reset state is idle, with an empty trace and an empty buffer. -/
theorem resetStateSatisfiesInvariant : Obligations.ResetStateSatisfiesInvariant :=
  ⟨ofReset_inv rfl [], fun _ program hw => ofReset_inv hw program⟩

/-- Settles O6: each clause is the arm of `step` that its premises choose. -/
theorem stepsThatAcceptNoWord : Obligations.StepsThatAcceptNoWord := fun _ =>
  ⟨step_illFormed, fun hw hr => ⟨_, step_heldInReset hw hr, rfl, rfl⟩, rfl, step_busy,
    fun hw hr hb hpc => step_notPresented hw hr hb (List.getElem?_eq_none hpc)⟩

/-- Settles O8: the placed word is the one presented, and the numbering of `decodeTableWord` is that of the word placed. -/
theorem placedWordRunsNext : Obligations.PlacedWordRunsNext := by
  intro s nbits w i hw _ hd
  exact step_operation (s := s.withFetchWord nbits w) hw rfl rfl (getElem?_placeWord ..) (decode_tableWord hd)

end Sys2Proof.Machine
end

section
/-! PROOFS of the statement that the circles' offset lists are those of the loops of R160 and R161 as relations: the relations
are deterministic, and the model's recursions are runs of them. -/

namespace Sys2Proof.Machine

/-! ### The hollow circle's loop (R160) -/

/-! The first test writes neither `x` nor `dx`. -/

theorem hollowFirst_x (h : Hollow) : (hollowFirst h).x = h.x := by
  unfold hollowFirst
  split <;> rfl

theorem hollowFirst_dx (h : Hollow) : (hollowFirst h).dx = h.dx := by
  unfold hollowFirst
  split <;> rfl

/-! The two tests of a step as the relation writes them, on the values between the tests and on the values after. -/

theorem hollowFirst_iff {h : Hollow} {y err dy : Int} :
    ((h.err ≤ 0 → y = h.y + 1 ∧ err = h.err + h.dy ∧ dy = h.dy + 2) ∧
        (0 < h.err → y = h.y ∧ err = h.err ∧ dy = h.dy)) ↔
      y = (hollowFirst h).y ∧ err = (hollowFirst h).err ∧ dy = (hollowFirst h).dy := by
  unfold hollowFirst
  split
  · dsimp only
    omega
  · omega

theorem hollowSecond_iff {r : Int} {h h' : Hollow} :
    ((0 < h.err → h'.x = h.x - 1 ∧ h'.dx = h.dx + 2 ∧ h'.err = h.err + h'.dx - 2 * r) ∧
        (h.err ≤ 0 → h'.x = h.x ∧ h'.dx = h.dx ∧ h'.err = h.err) ∧ h'.y = h.y ∧ h'.dy = h.dy) ↔
      h' = hollowSecond r h := by
  obtain ⟨x, y, dx, dy, err⟩ := h
  obtain ⟨x', y', dx', dy', err'⟩ := h'
  unfold hollowSecond
  dsimp only
  split <;> simp only [Hollow.mk.injEq] <;> omega

/-- The relation of R160 has one answer, the step of the model. -/
theorem hollowUpdate_iff {r : Int} {h h' : Hollow} : HollowUpdate r h h' ↔ h' = hollowNext r h := by
  rw [hollowNext, ← hollowSecond_iff, hollowFirst_x, hollowFirst_dx]
  constructor
  · rintro ⟨y, err, dy, h1, h2, hsecond⟩
    obtain ⟨rfl, rfl, rfl⟩ := hollowFirst_iff.1 ⟨h1, h2⟩
    exact hsecond
  · intro hsecond
    obtain ⟨h1, h2⟩ := hollowFirst_iff.2 ⟨rfl, rfl, rfl⟩
    exact ⟨_, _, _, h1, h2, hsecond⟩

theorem HollowLoop.unique {r : Int} {h fin fin' : Hollow} {o o' : List (Int × Int)} (hl : HollowLoop r h o fin)
    (hl' : HollowLoop r h o' fin') : o = o' ∧ fin = fin' := by
  induction hl generalizing o' with
  | done hlt =>
    cases hl' with
    | done => exact ⟨rfl, rfl⟩
    | step hle => exact absurd hlt (not_lt.2 hle)
  | step hle hu _ ih =>
    cases hl' with
    | done hlt => exact absurd hlt (not_lt.2 hle)
    | step _ hu' hl' =>
      obtain rfl := hollowUpdate_iff.1 hu
      obtain rfl := hollowUpdate_iff.1 hu'
      obtain ⟨rfl, rfl⟩ := ih hl'
      exact ⟨rfl, rfl⟩

/-- With a step of fuel for each unit of the gap `x - y` the recursion is a run of the loop. -/
theorem hollowLoop_hollowSteps (r : Int) {fuel : Nat} {h : Hollow} (hf : h.x - h.y < fuel) :
    HollowLoop r h ((hollowSteps r fuel h).flatMap fun g => octants g.x g.y) (hollowEnd r fuel h) := by
  induction fuel generalizing h with
  | zero => exact .done (by simpa using hf)
  | succ n ih =>
    simp only [hollowSteps, hollowEnd]
    split
    · rename_i hle
      have hgap := hollowNext_gap r h
      push_cast at hf
      exact .step hle (hollowUpdate_iff.2 rfl) (ih (by omega))
    · exact .done (by omega)

theorem hollowLoop_hollowOffsets (r : Nat) :
    HollowLoop r (hollowStart r) (hollowOffsets r) (hollowEnd r r (hollowStart r)) :=
  hollowLoop_hollowSteps r (by simp [hollowStart])

/-! ### The filled circle's loop (R161) -/

theorem SpanLoop.unique {last row i : Int} {o o' : List (Int × Int)} (hl : SpanLoop last row i o)
    (hl' : SpanLoop last row i o') : o = o' := by
  induction hl generalizing o' with
  | done hlt =>
    cases hl' with
    | done => rfl
    | step hle => exact absurd hlt (not_lt.2 hle)
  | step hle _ ih =>
    cases hl' with
    | done hlt => exact absurd hlt (not_lt.2 hle)
    | step _ hl' => rw [ih hl']

/-- The `n` columns from `i` on, if the last of them is `last`. -/
theorem spanLoop_range {last row i : Int} {n : Nat} (hn : n = (last + 1 - i).toNat) :
    SpanLoop last row i ((List.range n).flatMap fun k : Nat => [(i + k, row), (i + k, -row)]) := by
  induction n generalizing i with
  | zero => exact .done (by omega)
  | succ n ih =>
    have hrest := SpanLoop.step (row := row) (i := i) (last := last) (by omega) (ih (by omega))
    simpa [List.range_succ_eq_map, List.flatMap_map, add_assoc, add_comm (1 : Int)] using hrest

theorem spanLoop_spanPair (reach row : Int) : SpanLoop reach row (-reach) (spanPair reach row) := by
  have hl := spanLoop_range (row := row) (i := -reach) (last := reach) rfl
  rw [show reach + 1 - -reach = 2 * reach + 1 by ring] at hl
  simpa only [spanPair, symmetricRange, List.flatMap_map, sub_eq_neg_add] using hl

/-- The relation of R161 has one answer, the step of the model. -/
theorem filledUpdate_iff {f f' : Filled} : FilledUpdate f f' ↔ f' = filledNext f := by
  obtain ⟨x', y', xChange', yChange', radiusError'⟩ := f'
  unfold FilledUpdate filledNext filledColumn filledRow
  dsimp only
  split <;> simp only [Filled.mk.injEq] <;> omega

theorem FilledLoop.unique {f fin fin' : Filled} {o o' : List (Int × Int)} (hl : FilledLoop f o fin)
    (hl' : FilledLoop f o' fin') : o = o' ∧ fin = fin' := by
  induction hl generalizing o' with
  | done hlt =>
    cases hl' with
    | done => exact ⟨rfl, rfl⟩
    | step hle => exact absurd hlt (not_lt.2 hle)
  | step hle hwide hnarrow hu _ ih =>
    cases hl' with
    | done hlt => exact absurd hlt (not_lt.2 hle)
    | step _ hwide' hnarrow' hu' hl' =>
      obtain rfl := filledUpdate_iff.1 hu
      obtain rfl := filledUpdate_iff.1 hu'
      obtain ⟨rfl, rfl⟩ := ih hl'
      exact ⟨by rw [hwide.unique hwide', hnarrow.unique hnarrow'], rfl⟩

theorem filledLoop_filledSteps {fuel : Nat} {f : Filled} (hf : f.x - f.y < fuel) :
    FilledLoop f ((filledSteps fuel f).flatMap fun g => spanPair g.x g.y ++ spanPair g.y g.x) (filledEnd fuel f) := by
  induction fuel generalizing f with
  | zero => exact .done (by simpa using hf)
  | succ n ih =>
    simp only [filledSteps, filledEnd]
    split
    · rename_i hle
      have hmove := filledNext_move f
      push_cast at hf
      exact .step hle (spanLoop_spanPair ..) (spanLoop_spanPair ..) (filledUpdate_iff.2 rfl) (ih (by omega))
    · exact .done (by omega)

theorem filledLoop_filledOffsets (r : Nat) :
    FilledLoop (filledStart r) (filledOffsets r) (filledEnd (r + 1) (filledStart r)) :=
  filledLoop_filledSteps (by simp [filledStart])

/-! ### The registers after an operation (R31, log 8) -/

theorem hollowWork_of_exec_circh {cx cy color : U16} {r : Nat} {s t : State} (hr : r < 65536)
    (h : exec (.circh cx cy (.ofNat 16 r) color) s = .next t) : t.hollowWork = hollowRegisters r := by
  rw [exec_circh] at h
  cases h
  rw [State.complete_hollowWork, circleHollow, BitVec.toNat_ofNat, Nat.mod_eq_of_lt hr]

theorem filledWork_of_exec_circf {cx cy color : U16} {r : Nat} {s t : State} (hr : r < 65536)
    (h : exec (.circf cx cy (.ofNat 16 r) color) s = .next t) : t.filledWork = filledRegisters r := by
  rw [exec_circf] at h
  cases h
  rw [State.complete_filledWork, circleFilled, BitVec.toNat_ofNat, Nat.mod_eq_of_lt hr]

/-! ### The obligation -/

/-- Settles O41: the recursions are runs of the loops, and a loop has one run. -/
theorem circleOffsetsAreTheLoopsOfTheRules : Obligations.CircleOffsetsAreTheLoopsOfTheRules := by
  refine ⟨fun r => ⟨⟨_, hollowLoop_hollowOffsets r⟩, ⟨_, filledLoop_filledOffsets r⟩⟩, ?hollow, ?filled⟩
  case hollow =>
    intro r offsets fin hl
    obtain ⟨rfl, rfl⟩ := hl.unique (hollowLoop_hollowOffsets r)
    exact ⟨rfl, fun _ _ _ _ _ hr he => hollowWork_of_exec_circh hr he⟩
  case filled =>
    intro r offsets fin hl
    obtain ⟨rfl, rfl⟩ := hl.unique (filledLoop_filledOffsets r)
    refine ⟨rfl, fun _ _ _ _ _ hr he => ?_⟩
    rw [filledWork_of_exec_circf hr he]
    rfl

end Sys2Proof.Machine
end
